-- ==== Sys2Proof/Word.lean ====
section
/-! DEFINITION. The word types of SimpleCPU (spec/00_scope.md section 4, R2, R3). -/

namespace Sys2Proof

/-- Half of a packed register byte (R94). -/
abbrev Nibble := BitVec 4

/-- The addressable unit, u8 (R3). -/
abbrev Byte := BitVec 8

/-- A register, an address, a 16-bit operand field: u16 (R3). Its `+` and `-` are `+16` and `-16`. -/
abbrev Word := BitVec 16

end Sys2Proof
end

