-- ==== Sys2Proof/Syntax.lean ====
section
/-! DEFINITION. The instructions of SimpleCPU: one constructor per row of spec/opcode_table.json (R98). -/

namespace Sys2Proof

/-- A register operand (R20): one of the six registers by name, or an index that names none (6..255 in a `reg` byte,
6..15 in a packed nibble), which decodes and reads as zero (R5, R95). -/
inductive Reg where
  | a
  | b
  | c
  | d
  | sp
  | pc
  | invalid (index : Byte)
deriving DecidableEq, Repr

/-- The 33 instructions (R98). In a two-register form `rd` is the destination (the first operand) and `rs` the source. -/
inductive Instr where
  /-- `NOP` (R162). -/
  | nop
  /-- `LOAD r,imm` (R163). -/
  | loadImm (r : Reg) (imm : Word)
  /-- `LOAD r,[addr]` (R164). -/
  | loadMem (r : Reg) (addr : Word)
  /-- `STORE [addr],r` (R165). -/
  | store (addr : Word) (r : Reg)
  /-- `MOV r1,r2` (R166). -/
  | mov (rd rs : Reg)
  /-- `PUSH r` (R167). -/
  | push (r : Reg)
  /-- `POP r` (R168). -/
  | pop (r : Reg)
  /-- `ADD r1,r2` (R182). -/
  | add (rd rs : Reg)
  /-- `ADDI r,imm` (R183). -/
  | addi (r : Reg) (imm : Word)
  /-- `SUB r1,r2` (R184). -/
  | sub (rd rs : Reg)
  /-- `SUBI r,imm` (R185). -/
  | subi (r : Reg) (imm : Word)
  /-- `MUL r1,r2` (R186). -/
  | mul (rd rs : Reg)
  /-- `DIV r1,r2` (R187). -/
  | div (rd rs : Reg)
  /-- `INC r` (R188). -/
  | inc (r : Reg)
  /-- `DEC r` (R189). -/
  | dec (r : Reg)
  /-- `AND r1,r2` (R201). -/
  | and (rd rs : Reg)
  /-- `OR r1,r2` (R202). -/
  | or (rd rs : Reg)
  /-- `XOR r1,r2` (R203). -/
  | xor (rd rs : Reg)
  /-- `NOT r` (R204). -/
  | not (r : Reg)
  /-- `SHL r,imm8` (R205). -/
  | shl (r : Reg) (k : Byte)
  /-- `SHR r,imm8` (R206). -/
  | shr (r : Reg) (k : Byte)
  /-- `CMP r1,r2` (R220). -/
  | cmp (rd rs : Reg)
  /-- `CMPI r,imm` (R221). -/
  | cmpi (r : Reg) (imm : Word)
  /-- `JMP addr` (R233). -/
  | jmp (addr : Word)
  /-- `JZ addr` (R234). -/
  | jz (addr : Word)
  /-- `JNZ addr` (R235). -/
  | jnz (addr : Word)
  /-- `JC addr` (R236). -/
  | jc (addr : Word)
  /-- `JNC addr` (R237). -/
  | jnc (addr : Word)
  /-- `CALL addr` (R238). -/
  | call (addr : Word)
  /-- `RET` (R239). -/
  | ret
  /-- `IN r,port` (R250). -/
  | inPort (r : Reg) (port : Word)
  /-- `OUT port,r` (R251). -/
  | outPort (port : Word) (r : Reg)
  /-- `HLT` (R252). -/
  | hlt
deriving DecidableEq, Repr

end Sys2Proof
end

