-- ==== Sys2Proof/WellFormed.lean ====
section
/-! DEFINITION. Which instructions have an encoding (R91, R94, R100). Every word, shift count and register index has one;
the only ill-formed terms are those that spell a valid index as `invalid`, or a packed index above 15. -/

namespace Sys2Proof

/-- A register operand of a `reg` byte (R93): an `invalid` index is 6..255. -/
def Reg.wellFormedByte : Reg → Bool
  | .invalid i => decide (6 ≤ i.toNat)
  | _ => true

/-- A register operand of a packed nibble (R94): an `invalid` index is 6..15. -/
def Reg.wellFormedNibble : Reg → Bool
  | .invalid i => decide (6 ≤ i.toNat) && decide (i.toNat ≤ 15)
  | _ => true

/-- The instructions that some bytes encode. -/
def Instr.wellFormed : Instr → Bool
  | .nop => true
  | .loadImm r _ => r.wellFormedByte
  | .loadMem r _ => r.wellFormedByte
  | .store _ r => r.wellFormedByte
  | .mov rd rs => rd.wellFormedNibble && rs.wellFormedNibble
  | .push r => r.wellFormedByte
  | .pop r => r.wellFormedByte
  | .add rd rs => rd.wellFormedNibble && rs.wellFormedNibble
  | .addi r _ => r.wellFormedByte
  | .sub rd rs => rd.wellFormedNibble && rs.wellFormedNibble
  | .subi r _ => r.wellFormedByte
  | .mul rd rs => rd.wellFormedNibble && rs.wellFormedNibble
  | .div rd rs => rd.wellFormedNibble && rs.wellFormedNibble
  | .inc r => r.wellFormedByte
  | .dec r => r.wellFormedByte
  | .and rd rs => rd.wellFormedNibble && rs.wellFormedNibble
  | .or rd rs => rd.wellFormedNibble && rs.wellFormedNibble
  | .xor rd rs => rd.wellFormedNibble && rs.wellFormedNibble
  | .not r => r.wellFormedByte
  | .shl r _ => r.wellFormedByte
  | .shr r _ => r.wellFormedByte
  | .cmp rd rs => rd.wellFormedNibble && rs.wellFormedNibble
  | .cmpi r _ => r.wellFormedByte
  | .jmp _ => true
  | .jz _ => true
  | .jnz _ => true
  | .jc _ => true
  | .jnc _ => true
  | .call _ => true
  | .ret => true
  | .inPort r _ => r.wellFormedByte
  | .outPort _ r => r.wellFormedByte
  | .hlt => true

end Sys2Proof
end

