-- ==== Sys2Proof/Decode.lean ====
section
/-! DEFINITION. The decoder and the encoder (spec/30_encoding.md), and the bit-field and byte-order helpers they use. -/

namespace Sys2Proof

/-! ### Byte order (R59, R96) -/

/-- Bits 7..0 of a word. -/
def loByte (w : Word) : Byte := w.extractLsb' 0 8

/-- Bits 15..8 of a word. -/
def hiByte (w : Word) : Byte := w.extractLsb' 8 8

/-- `hi ++ lo`: the word whose low byte stands at the lower address (R3, R96). -/
def wordOf (lo hi : Byte) : Word := hi ++ lo

/-- `zext_16` (R4). -/
def zextByte (b : Byte) : Word := b.setWidth 16

/-! ### Register operands (R20, R93, R94, R95) -/

/-- The register a whole `reg` byte names; no masking (R93). -/
def Reg.ofByte (i : Byte) : Reg :=
  match i.toNat with
  | 0 => .a
  | 1 => .b
  | 2 => .c
  | 3 => .d
  | 4 => .sp
  | 5 => .pc
  | _ => .invalid i

/-- The register a packed nibble names (R94). -/
def Reg.ofNibble (n : Nibble) : Reg := Reg.ofByte (n.setWidth 8)

/-- The index of a register operand: `A=0 B=1 C=2 D=3 SP=4 PC=5` (R5). -/
def Reg.index : Reg → Byte
  | .a => 0#8
  | .b => 1#8
  | .c => 2#8
  | .d => 3#8
  | .sp => 4#8
  | .pc => 5#8
  | .invalid i => i

/-- A packed byte: the destination in bits 7..4, the source in bits 3..0 (R94). -/
def packRegs (rd rs : Reg) : Byte := rd.index.extractLsb' 0 4 ++ rs.index.extractLsb' 0 4

/-! ### Formats and the opcode map (R92, R98) -/

/-- The seven formats of R92, each with the instruction it makes of its operands. -/
inductive Shape where
  /-- `N`: no operand bytes. -/
  | n (i : Instr)
  /-- `R`: `reg`. -/
  | r (f : Reg → Instr)
  /-- `P`: `packed`. -/
  | p (f : Reg → Reg → Instr)
  /-- `RW`: `reg`, word. -/
  | rw (f : Reg → Word → Instr)
  /-- `WR`: word, `reg`. -/
  | wr (f : Word → Reg → Instr)
  /-- `RS`: `reg`, `shift`. -/
  | rs (f : Reg → Byte → Instr)
  /-- `W`: word. -/
  | w (f : Word → Instr)

/-- How many bytes follow the opcode (R92: the length less one). -/
def Shape.operandBytes : Shape → Nat
  | .n _ => 0
  | .r _ => 1
  | .p _ => 1
  | .rw _ => 3
  | .wr _ => 3
  | .rs _ => 2
  | .w _ => 2

/-- The instruction a format makes of its operand bytes `b1, b2, b3` in address order (R92, R93, R94, R96, R97).
It reads exactly the first `operandBytes` of the list. -/
def Shape.build (sh : Shape) (ops : List Byte) : Instr :=
  match sh with
  | .n i => i
  | .r f => f (Reg.ofByte (ops.getD 0 0))
  | .p f => f (Reg.ofNibble ((ops.getD 0 0).extractLsb' 4 4)) (Reg.ofNibble ((ops.getD 0 0).extractLsb' 0 4))
  | .rw f => f (Reg.ofByte (ops.getD 0 0)) (wordOf (ops.getD 1 0) (ops.getD 2 0))
  | .wr f => f (wordOf (ops.getD 0 0) (ops.getD 1 0)) (Reg.ofByte (ops.getD 2 0))
  | .rs f => f (Reg.ofByte (ops.getD 0 0)) (ops.getD 1 0)
  | .w f => f (wordOf (ops.getD 0 0) (ops.getD 1 0))

/-- The opcode map (R98); `none` for the 223 illegal opcode bytes (R99). -/
def shapeOf (op : Byte) : Option Shape :=
  match op.toNat with
  | 0x00 => some (.n .nop)
  | 0x01 => some (.rw .loadImm)
  | 0x02 => some (.rw .loadMem)
  | 0x03 => some (.wr .store)
  | 0x04 => some (.p .mov)
  | 0x05 => some (.r .push)
  | 0x06 => some (.r .pop)
  | 0x10 => some (.p .add)
  | 0x11 => some (.rw .addi)
  | 0x12 => some (.p .sub)
  | 0x13 => some (.rw .subi)
  | 0x14 => some (.p .mul)
  | 0x15 => some (.p .div)
  | 0x16 => some (.r .inc)
  | 0x17 => some (.r .dec)
  | 0x20 => some (.p .and)
  | 0x21 => some (.p .or)
  | 0x22 => some (.p .xor)
  | 0x23 => some (.r .not)
  | 0x24 => some (.rs .shl)
  | 0x25 => some (.rs .shr)
  | 0x30 => some (.p .cmp)
  | 0x31 => some (.rw .cmpi)
  | 0x40 => some (.w .jmp)
  | 0x41 => some (.w .jz)
  | 0x42 => some (.w .jnz)
  | 0x43 => some (.w .jc)
  | 0x44 => some (.w .jnc)
  | 0x45 => some (.w .call)
  | 0x46 => some (.n .ret)
  | 0x50 => some (.rw .inPort)
  | 0x51 => some (.wr .outPort)
  | 0xFF => some (.n .hlt)
  | _ => none

/-- Why a list of bytes is no instruction. -/
inductive DecodeError where
  /-- The opcode byte is one of the 223 of R99. -/
  | unknownOpcode (op : Byte)
  /-- The list ends before the instruction does (the machine itself never meets this: it reads as many bytes as the
  opcode asks for, R134). -/
  | truncated
deriving DecidableEq, Repr

/-- Decoding, total on bytes (R101): the first instruction of the list and the bytes after it. -/
def decode : List Byte → Except DecodeError (Instr × List Byte)
  | [] => .error .truncated
  | op :: rest =>
    match shapeOf op with
    | none => .error (.unknownOpcode op)
    | some sh =>
      if rest.length < sh.operandBytes then .error .truncated
      else .ok (sh.build (rest.take sh.operandBytes), rest.drop sh.operandBytes)

/-! ### The host's instruction words -/

/-- The bytes of an instruction given as one number, its first byte the least significant, every bit above `nbits` zero,
up to the longest instruction (4 bytes, R90). -/
def tableWordBytes (nbits w : Nat) : List Byte :=
  let v := w % 2 ^ nbits
  [BitVec.ofNat 8 v, BitVec.ofNat 8 (v >>> 8), BitVec.ofNat 8 (v >>> 16), BitVec.ofNat 8 (v >>> 24)]

/-- The instruction the decoder reads from a table word. -/
def decodeTableWord (nbits w : Nat) : Option Instr :=
  match decode (tableWordBytes nbits w) with
  | .ok (i, _) => some i
  | .error _ => none

/-! ### The encoder (R92, R98) -/

/-- Format `R`. -/
def encodeR (op : Byte) (r : Reg) : List Byte := [op, r.index]
/-- Format `P`. -/
def encodeP (op : Byte) (rd rs : Reg) : List Byte := [op, packRegs rd rs]
/-- Format `RW`. -/
def encodeRW (op : Byte) (r : Reg) (w : Word) : List Byte := [op, r.index, loByte w, hiByte w]
/-- Format `WR`. -/
def encodeWR (op : Byte) (w : Word) (r : Reg) : List Byte := [op, loByte w, hiByte w, r.index]
/-- Format `RS`. -/
def encodeRS (op : Byte) (r : Reg) (k : Byte) : List Byte := [op, r.index, k]
/-- Format `W`. -/
def encodeW (op : Byte) (w : Word) : List Byte := [op, loByte w, hiByte w]

/-- The bytes of a well-formed instruction, in address order. -/
def encode : Instr → List Byte
  | .nop => [0x00#8]
  | .loadImm r imm => encodeRW 0x01#8 r imm
  | .loadMem r addr => encodeRW 0x02#8 r addr
  | .store addr r => encodeWR 0x03#8 addr r
  | .mov rd rs => encodeP 0x04#8 rd rs
  | .push r => encodeR 0x05#8 r
  | .pop r => encodeR 0x06#8 r
  | .add rd rs => encodeP 0x10#8 rd rs
  | .addi r imm => encodeRW 0x11#8 r imm
  | .sub rd rs => encodeP 0x12#8 rd rs
  | .subi r imm => encodeRW 0x13#8 r imm
  | .mul rd rs => encodeP 0x14#8 rd rs
  | .div rd rs => encodeP 0x15#8 rd rs
  | .inc r => encodeR 0x16#8 r
  | .dec r => encodeR 0x17#8 r
  | .and rd rs => encodeP 0x20#8 rd rs
  | .or rd rs => encodeP 0x21#8 rd rs
  | .xor rd rs => encodeP 0x22#8 rd rs
  | .not r => encodeR 0x23#8 r
  | .shl r k => encodeRS 0x24#8 r k
  | .shr r k => encodeRS 0x25#8 r k
  | .cmp rd rs => encodeP 0x30#8 rd rs
  | .cmpi r imm => encodeRW 0x31#8 r imm
  | .jmp addr => encodeW 0x40#8 addr
  | .jz addr => encodeW 0x41#8 addr
  | .jnz addr => encodeW 0x42#8 addr
  | .jc addr => encodeW 0x43#8 addr
  | .jnc addr => encodeW 0x44#8 addr
  | .call addr => encodeW 0x45#8 addr
  | .ret => [0x46#8]
  | .inPort r port => encodeRW 0x50#8 r port
  | .outPort port r => encodeWR 0x51#8 port r
  | .hlt => [0xFF#8]

end Sys2Proof
end

