-- ==== Sys2Proof/Config.lean ====
section
/-! DEFINITION. The constants this hardware fixes for reset (spec/00_scope.md section 4).
The spec closes every open point of its source by a decision its rules carry, so there is no free value here. -/

namespace Sys2Proof.Config

/-- The program base: images load here, and reset `PC` points here (R53, R301). -/
def programBase : Word := 0x0100#16

/-- The reset value of `SP` (R22, R36; odd, see 90_conflicts.md C2). -/
def initialSp : Word := 0xFEFF#16

end Sys2Proof.Config
end

