-- ==== Sys2Proof/Machine/State.lean ====
section
/-! DEFINITION. The state of the core (spec/10_state.md), the host's byte streams it reaches (R80, R81), and the state
after reset (R36). Everything is plain data. -/

namespace Sys2Proof.Machine

/-- The array `mem` (R28) as the cells that do not hold the reset byte `0x00`, addresses strictly rising
(`Memory.wf` in Machine/Ops.lean); an address not listed holds `0x00` (R36, "memory zeroed"). -/
abbrev Memory := List Host.Cell

/-- The two runtime errors (R270, R271, R272). -/
inductive RuntimeError where
  | divideByZero
  | unknownOpcode
deriving DecidableEq, Repr

/-- What the last step answered (R130). The spec's `step()` returns this to the host; the model keeps it in State
(log entry 4). -/
inductive StepStatus where
  /-- No step has been taken yet. -/
  | notStepped
  /-- One instruction ran, HLT included. -/
  | executed
  /-- The core was halted; nothing happened (R140). -/
  | alreadyHalted
  /-- A runtime error stopped the instruction whose opcode stands at `pc0` (R136). -/
  | fatal (kind : RuntimeError) (pc0 : Word)
  /-- The step has not returned: it waits on a STDIN read that the host has not answered (R142, R312; log entry 5). -/
  | waiting
deriving DecidableEq, Repr

/-- The machine. -/
structure State where
  /-- `regs[0]` (R20, R21). -/
  a : Word
  /-- `regs[1]` (R20, R21). -/
  b : Word
  /-- `regs[2]` (R20, R21). -/
  c : Word
  /-- `regs[3]` (R20, R21). -/
  d : Word
  /-- `regs[4]`, the stack pointer (R22). -/
  sp : Word
  /-- `regs[5]`, the address of the next opcode; inside a step, `pc0` (R23, R138). -/
  pc : Word
  /-- `F`: Z, C, N, O in bits 7, 6, 5, 4; bits 3..0 reserved (R25, R26). -/
  flags : Byte
  /-- `mem` (R28), the four cells under the ports included (R73). -/
  mem : Memory
  /-- R29. -/
  halted : Bool
  /-- R30. -/
  running : Bool
  /-- The count of completed instructions (R31). -/
  cycles : BitVec 64
  /-- R32. -/
  timerEnabled : Bool
  /-- R33. -/
  timerValue : Word
  /-- The step's local cursor (R35, R131); every step sets it before it reads it (log entry 1). -/
  cursor : Word
  /-- `HostInput`: the bytes the host has supplied and the core has not consumed, next byte first (R80; log entry 2). -/
  input : List Byte
  /-- The host has signalled end of stream after the bytes of `input` (R80; log entry 2). -/
  inputEnded : Bool
  /-- `HostOutput`: every byte emitted so far, in order (R81; log entry 3). -/
  output : List Byte
  /-- The outcome of the last step (R130; log entry 4). -/
  lastStep : StepStatus
deriving DecidableEq, Repr

/-- Reasons for the machine to stop without a next state. There is NONE, so the type has no constructor and nothing
raises it: the spec gives a resulting state to both runtime errors (R136), to a step on a halted core (R140) and, in this
model, to a wait on STDIN (log entry 5). Safe: nothing is stopped that the hardware would run. -/
inductive Fault where
deriving DecidableEq, Repr

/-- Reasons to give an instruction no meaning. -/
inductive Refusal where
  /-- Raised by an arm of `exec` whose instruction has no meaning yet, and by nothing else. No arm of this model raises
  it. Safe: the run stops. -/
  | notModelled (mnemonic : String)
deriving DecidableEq, Repr

/-- What an instruction, or a step, answers. -/
abbrev Result := Host.Outcome State Fault Refusal

/-- The machine right after reset (R36, R300). `cursor`, the host streams and `lastStep` are no part of the spec's reset;
their values here are named in log entries 1 to 4. -/
def State.reset : State where
  a := 0x0000#16
  b := 0x0000#16
  c := 0x0000#16
  d := 0x0000#16
  sp := Config.initialSp
  pc := Config.programBase
  flags := 0x00#8
  mem := []
  halted := false
  running := false
  cycles := 0#64
  timerEnabled := false
  timerValue := 0x0000#16
  cursor := Config.programBase
  input := []
  inputEnded := false
  output := []
  lastStep := .notStepped

end Sys2Proof.Machine
end

