-- ==== Sys2Proof/Machine/Flags.lean ====
section
/-! DEFINITION. The flags byte (spec/10_state.md R25 to R27) and every flag computation: the ALU functions of
spec/42_arithmetic.md and spec/43_logic_shift.md. -/

namespace Sys2Proof.Machine

/-- `F.Z`, bit 7 (R25). -/
def flagZ (f : Byte) : Bool := f.getLsbD 7
/-- `F.C`, bit 6 (R25). -/
def flagC (f : Byte) : Bool := f.getLsbD 6
/-- `F.N`, bit 5 (R25). -/
def flagN (f : Byte) : Bool := f.getLsbD 5
/-- `F.O`, bit 4 (R25). -/
def flagO (f : Byte) : Bool := f.getLsbD 4

/-- The flags byte with Z, C, N, O written and bits 3..0 as they were (R8, R26). -/
def packFlags (old : Byte) (z c n o : Bool) : Byte :=
  BitVec.ofBool z ++ (BitVec.ofBool c ++ (BitVec.ofBool n ++ (BitVec.ofBool o ++ old.extractLsb' 0 4)))

/-- A 16-bit result and the four flags that go with it. -/
structure Alu where
  value : Word
  z : Bool
  c : Bool
  n : Bool
  o : Bool
deriving DecidableEq, Repr

/-- A result with Z and N from it (`setZN`, R8) and the given C and O. -/
def aluResult (v : Word) (c o : Bool) : Alu := { value := v, z := v == 0#16, c := c, n := v.getLsbD 15, o := o }

/-- `alu_add` (R180). -/
def aluAdd (x y : Word) : Alu :=
  aluResult (x + y) (decide (0xFFFF < x.toNat + y.toNat)) (((x ^^^ (x + y)) &&& (y ^^^ (x + y))).getLsbD 15)

/-- `alu_sub` (R181). -/
def aluSub (x y : Word) : Alu :=
  aluResult (x - y) (decide (x.toNat < y.toNat)) (((x ^^^ y) &&& (x ^^^ (x - y))).getLsbD 15)

/-- MUL (R186): the low half, C when the high half is not zero. -/
def aluMul (x y : Word) : Alu := aluResult (x * y) ((x.toNat * y.toNat) >>> 16 != 0) false

/-- The quotient of DIV (R187), unsigned; only used with a divisor that is not zero. -/
def aluDiv (x y : Word) : Alu := aluResult (x / y) false false

/-- The remainder of DIV (R187), unsigned. -/
def divRemainder (x y : Word) : Word := x % y

/-- INC (R188). -/
def aluInc (x : Word) : Alu := aluResult (x + 1#16) false false

/-- DEC (R189). -/
def aluDec (x : Word) : Alu := aluResult (x - 1#16) false false

/-- AND (R200, R201). -/
def aluAnd (x y : Word) : Alu := aluResult (x &&& y) false false

/-- OR (R200, R202). -/
def aluOr (x y : Word) : Alu := aluResult (x ||| y) false false

/-- XOR (R200, R203). -/
def aluXor (x y : Word) : Alu := aluResult (x ^^^ y) false false

/-- NOT (R200, R204). -/
def aluNot (x : Word) : Alu := aluResult (~~~x) false false

/-- The last bit a left shift by `k` moves out of bit 15 (R205): none for 0, and 0 for 17 and more (D13). -/
def shlCarry (x : Word) (k : Nat) : Bool := decide (k ≠ 0) && (decide (k ≤ 16) && x.getLsbD (16 - k))

/-- The last bit a right shift by `k` moves out of bit 0 (R206): none for 0, and 0 for 17 and more (D13). -/
def shrCarry (x : Word) (k : Nat) : Bool := decide (k ≠ 0) && (decide (k ≤ 16) && x.getLsbD (k - 1))

/-- SHL (R205). -/
def aluShl (x : Word) (k : Byte) : Alu := aluResult (x <<< k.toNat) (shlCarry x k.toNat) false

/-- SHR (R206): logical, zeros shift in (D13). -/
def aluShr (x : Word) (k : Byte) : Alu := aluResult (x >>> k.toNat) (shrCarry x k.toNat) false

/-- Write all four flags; bits 3..0 stay (R26, R27). -/
def setFlags (s : State) (r : Alu) : State := { s with flags := packFlags s.flags r.z r.c r.n r.o }

end Sys2Proof.Machine
end

