-- ==== Sys2Proof/Machine/Operands.lean ====
section
/-! DEFINITION. Register operands (spec/00_scope.md R5, spec/10_state.md R20 to R23, spec/40_execution_cycle.md R138, R139). -/

namespace Sys2Proof.Machine

/-- `x[r]` (R5). An index above 5 reads `0x0000`. Index 5 reads `pc0`, since `PC` changes only at the writeback (R138). -/
def readReg (s : State) : Reg → Word
  | .a => s.a
  | .b => s.b
  | .c => s.c
  | .d => s.d
  | .sp => s.sp
  | .pc => s.pc
  | .invalid _ => 0x0000#16

/-- `x[r] <- v` (R5). A write to an index above 5 does nothing. A write to `PC` is made here and replaced at the
writeback (R138). -/
def writeReg (s : State) (r : Reg) (v : Word) : State :=
  match r with
  | .a => { s with a := v }
  | .b => { s with b := v }
  | .c => { s with c := v }
  | .d => { s with d := v }
  | .sp => { s with sp := v }
  | .pc => { s with pc := v }
  | .invalid _ => s

end Sys2Proof.Machine
end

