-- ==== Sys2Proof/Machine/Ops.lean ====
section
/-! DEFINITION. The operations every instruction is written with: memory and its ports (spec/20_memory.md), the stack
(R160, R161), the ends of a step (R135 to R137), the runtime errors (spec/60_exceptions.md), and the wait on STDIN (R312). -/

namespace Sys2Proof.Machine

/-! ### The memory array (R28, R36) -/

/-- What a byte that nothing has written reads as: "memory zeroed" (R36). -/
def unwrittenByte : Byte := 0x00#8

/-- The byte at an address. -/
def Memory.read : Memory → Nat → Byte
  | [], _ => unwrittenByte
  | cell :: m, addr => if cell.1 = addr then cell.2 else Memory.read m addr

/-- The memory with nothing listed at an address. -/
def Memory.erase : Memory → Nat → Memory
  | [], _ => []
  | cell :: m, addr => if cell.1 = addr then Memory.erase m addr else cell :: Memory.erase m addr

/-- The memory with one cell put in before the first higher address. -/
def Memory.place : Memory → Nat → Byte → Memory
  | [], addr, v => [(addr, v)]
  | cell :: m, addr, v => if addr < cell.1 then (addr, v) :: cell :: m else cell :: Memory.place m addr v

/-- The memory with `v` at an address, in canonical form when it was. -/
def Memory.write (m : Memory) (addr : Nat) (v : Byte) : Memory :=
  if v = unwrittenByte then Memory.erase m addr else Memory.place (Memory.erase m addr) addr v

/-- The canonical form: addresses below 0x10000 and strictly rising, no cell that reads as an unlisted one does. -/
def Memory.wf : Memory → Bool
  | [] => true
  | cell :: m =>
    decide (cell.1 < 0x10000) && (cell.2 != unwrittenByte) && m.all (fun next => decide (cell.1 < next.1)) && Memory.wf m

/-- The bytes copied to consecutive addresses, modulo 0x10000, past the port handlers (R302: "raw copy"). -/
def Memory.copyIn (m : Memory) (start : Word) : List Byte → Memory
  | [] => m
  | v :: rest => Memory.copyIn (m.write start.toNat v) (start + 1#16) rest

/-! ### The four ports (R52) -/

/-- STDOUT. -/
def stdoutPort : Word := 0xFF00#16
/-- STDIN. -/
def stdinPort : Word := 0xFF01#16
/-- Timer control. -/
def timerControlPort : Word := 0xFF02#16
/-- Timer value. -/
def timerValuePort : Word := 0xFF03#16

/-- The address is one of the four ports. -/
def isPort (addr : Word) : Bool :=
  addr == stdoutPort || addr == stdinPort || addr == timerControlPort || addr == timerValuePort

/-- `stdin_read()` (R64, R80): the next supplied byte, `0x00` at end of stream; `none` while the host has not answered. -/
def stdinRead (s : State) : Option (Byte × State) :=
  match s.input with
  | v :: rest => some (v, { s with input := rest })
  | [] => if s.inputEnded then some (0x00#8, s) else none

/-- `HostOutput.emit` (R62, R81). -/
def emit (s : State) (v : Byte) : State := { s with output := s.output ++ [v] }

/-- `timer_control_write` (R66). -/
def timerControlWrite (s : State) (v : Byte) : State :=
  if v = 0x00#8 then { s with timerEnabled := false } else { s with timerEnabled := true, timerValue := 0x0000#16 }

/-- A byte write to the timer value port (R68). -/
def timerValueWrite (s : State) (v : Byte) : State := { s with timerValue := zextByte v }

/-! ### The memory interface (R55 to R58) -/

/-- `read_byte` (R55); `none` while it waits on STDIN (R80). -/
def readByte (s : State) (addr : Word) : Option (Byte × State) :=
  if addr = stdoutPort then some (0x00#8, s)
  else if addr = stdinPort then stdinRead s
  else if addr = timerControlPort then some (if s.timerEnabled then 0x01#8 else 0x00#8, s)
  else if addr = timerValuePort then some (loByte s.timerValue, s)
  else some (s.mem.read addr.toNat, s)

/-- `write_byte` (R56). -/
def writeByte (s : State) (addr : Word) (v : Byte) : State :=
  if addr = stdoutPort then emit s v
  else if addr = stdinPort then s
  else if addr = timerControlPort then timerControlWrite s v
  else if addr = timerValuePort then timerValueWrite s v
  else { s with mem := s.mem.write addr.toNat v }

/-- `read_word` (R57): the low byte first. -/
def readWord (s : State) (addr : Word) : Option (Word × State) :=
  match readByte s addr with
  | none => none
  | some (lo, s1) =>
    match readByte s1 (addr + 1#16) with
    | none => none
    | some (hi, s2) => some (wordOf lo hi, s2)

/-- `write_word` (R58): the low byte first. -/
def writeWord (s : State) (addr : Word) (v : Word) : State :=
  writeByte (writeByte s addr (loByte v)) (addr + 1#16) (hiByte v)

/-! ### The stack (R160, R161) -/

/-- `SP <- v`. -/
def setSp (s : State) (v : Word) : State := { s with sp := v }

/-- `Push(v)` (R160). -/
def push (s : State) (v : Word) : State := writeWord (setSp s (s.sp - 2#16)) (s.sp - 2#16) v

/-- `Pop()` (R161); `none` while a byte of it waits on STDIN. -/
def pop (s : State) : Option (Word × State) :=
  match readWord s s.sp with
  | none => none
  | some (v, s1) => some (v, setSp s1 (s1.sp + 2#16))

/-! ### The ends of a step -/

/-- `pc <- target`: the cursor a control transfer sets (R6, R230). -/
def jumpTo (s : State) (target : Word) : State := { s with cursor := target }

/-- The writeback (R137): `PC` from the cursor, one more completed instruction. -/
def retire (s : State) : State := { s with pc := s.cursor, cycles := s.cycles + 1#64, lastStep := .executed }

/-- The end of a HLT (R135): no writeback. -/
def halt (s : State) : State := { s with halted := true, running := false, lastStep := .executed }

/-- Taking a runtime error (R136, R270): the core halts, `PC` keeps `pc0`, nothing is saved for a handler and control goes
nowhere; the host is told the kind and `pc0`. -/
def raiseFatal (kind : RuntimeError) (s : State) : State :=
  { s with halted := true, running := false, lastStep := .fatal kind s.pc }

/-- The only way on from a halted core (R277): what the host's `run` does before it steps (R304). -/
def startRun (s : State) : State := { s with running := true, halted := false }

/-- A step on a halted core (R140). -/
def alreadyHalted (s : State) : State := { s with lastStep := .alreadyHalted }

/-- A step that waits on STDIN (R142, R312): nothing has happened yet that the host can see; the step is taken again, from
its start, on the next call (log entry 5). -/
def awaitInput (s : State) : State := { s with lastStep := .waiting }

/-- What a step that started in `s` answers: an instruction that waits takes back the fetch, so that the step can be taken
again from its start (log entry 5). -/
def settle (s : State) : Result → Result
  | .next t => if t.lastStep = .waiting then .next (awaitInput s) else .next t
  | .fault r => .fault r
  | .refused r => .refused r

/-! ### Instructions of one shape -/

/-- Write the flags and the destination register of an ALU instruction, and retire. -/
def retireAlu (s : State) (rd : Reg) (r : Alu) : Result := .next (retire (writeReg (setFlags s r) rd r.value))

/-- Write the flags alone, and retire (R220, R221). -/
def retireCompare (s : State) (r : Alu) : Result := .next (retire (setFlags s r))

/-- A jump taken when `taken` holds (R230). -/
def retireJump (s : State) (taken : Bool) (addr : Word) : Result :=
  .next (retire (if taken then jumpTo s addr else s))

end Sys2Proof.Machine
end

