-- ==== Sys2Proof/Machine/Arithmetic.lean ====
section
/-! DEFINITION. Arithmetic instructions (spec/42_arithmetic.md). Every one writes Z, C, N and O. -/

namespace Sys2Proof.Machine

/-- ADD r1,r2 (R182). -/
def execAdd (rd rs : Reg) (s : State) : Result := retireAlu s rd (aluAdd (readReg s rd) (readReg s rs))

/-- ADDI r,imm (R183). -/
def execAddi (r : Reg) (imm : Word) (s : State) : Result := retireAlu s r (aluAdd (readReg s r) imm)

/-- SUB r1,r2 (R184). -/
def execSub (rd rs : Reg) (s : State) : Result := retireAlu s rd (aluSub (readReg s rd) (readReg s rs))

/-- SUBI r,imm (R185). -/
def execSubi (r : Reg) (imm : Word) (s : State) : Result := retireAlu s r (aluSub (readReg s r) imm)

/-- MUL r1,r2 (R186). -/
def execMul (rd rs : Reg) (s : State) : Result := retireAlu s rd (aluMul (readReg s rd) (readReg s rs))

/-- DIV r1,r2 (R187): both operands are read first; the quotient is written, then the remainder, and the last write stays
(R10, D12); the flags come from the quotient. A zero divisor is the runtime error DivideByZero, with nothing written (R271). -/
def execDiv (rd rs : Reg) (s : State) : Result :=
  let x := readReg s rd
  let y := readReg s rs
  if y = 0#16 then .next (raiseFatal .divideByZero s)
  else .next (retire (writeReg (writeReg (setFlags s (aluDiv x y)) rd (aluDiv x y).value) rs (divRemainder x y)))

/-- INC r (R188). -/
def execInc (r : Reg) (s : State) : Result := retireAlu s r (aluInc (readReg s r))

/-- DEC r (R189). -/
def execDec (r : Reg) (s : State) : Result := retireAlu s r (aluDec (readReg s r))

end Sys2Proof.Machine
end

