-- ==== Sys2Proof/Machine/Compare.lean ====
section
/-! DEFINITION. Compare instructions (spec/44_compare.md): the flags of a subtraction, no register written. -/

namespace Sys2Proof.Machine

/-- CMP r1,r2 (R220). -/
def execCmp (rd rs : Reg) (s : State) : Result := retireCompare s (aluSub (readReg s rd) (readReg s rs))

/-- CMPI r,imm (R221). -/
def execCmpi (r : Reg) (imm : Word) (s : State) : Result := retireCompare s (aluSub (readReg s r) imm)

end Sys2Proof.Machine
end

