-- ==== Sys2Proof/Machine/Control.lean ====
section
/-! DEFINITION. Control transfer instructions (spec/45_control_transfer.md). None writes the flags. -/

namespace Sys2Proof.Machine

/-- JMP addr (R233). -/
def execJmp (addr : Word) (s : State) : Result := retireJump s true addr

/-- JZ addr (R234). -/
def execJz (addr : Word) (s : State) : Result := retireJump s (flagZ s.flags) addr

/-- JNZ addr (R235). -/
def execJnz (addr : Word) (s : State) : Result := retireJump s (!flagZ s.flags) addr

/-- JC addr (R236). -/
def execJc (addr : Word) (s : State) : Result := retireJump s (flagC s.flags) addr

/-- JNC addr (R237). -/
def execJnc (addr : Word) (s : State) : Result := retireJump s (!flagC s.flags) addr

/-- CALL addr (R238): the cursor, the address after the CALL, is pushed. -/
def execCall (addr : Word) (s : State) : Result := .next (retire (jumpTo (push s s.cursor) addr))

/-- RET (R239): the word popped becomes the cursor. -/
def execRet (s : State) : Result :=
  match pop s with
  | none => .next (awaitInput s)
  | some (v, s1) => .next (retire (jumpTo s1 v))

end Sys2Proof.Machine
end

