-- ==== Sys2Proof/Machine/DataMovement.lean ====
section
/-! DEFINITION. Data movement and stack instructions (spec/41_data_movement.md). None writes the flags (R27). -/

namespace Sys2Proof.Machine

/-- NOP (R162). -/
def execNop (s : State) : Result := .next (retire s)

/-- LOAD r,imm (R163). -/
def execLoadImm (r : Reg) (imm : Word) (s : State) : Result := .next (retire (writeReg s r imm))

/-- LOAD r,[addr] (R164). The read and its side effects happen whatever `r` is. -/
def execLoadMem (r : Reg) (addr : Word) (s : State) : Result :=
  match readWord s addr with
  | none => .next (awaitInput s)
  | some (v, s1) => .next (retire (writeReg s1 r v))

/-- STORE [addr],r (R165). -/
def execStore (addr : Word) (r : Reg) (s : State) : Result := .next (retire (writeWord s addr (readReg s r)))

/-- MOV r1,r2 (R166). -/
def execMov (rd rs : Reg) (s : State) : Result := .next (retire (writeReg s rd (readReg s rs)))

/-- PUSH r (R167): the register is read before SP moves (D14). -/
def execPush (r : Reg) (s : State) : Result := .next (retire (push s (readReg s r)))

/-- POP r (R168): the destination is written after SP moves (D14). -/
def execPop (r : Reg) (s : State) : Result :=
  match pop s with
  | none => .next (awaitInput s)
  | some (v, s1) => .next (retire (writeReg s1 r v))

end Sys2Proof.Machine
end

