-- ==== Sys2Proof/Machine/InOut.lean ====
section
/-! DEFINITION. I/O and system instructions (spec/46_io_system.md). None writes the flags. -/

namespace Sys2Proof.Machine

/-- IN r,port (R250): any address, the byte zero-extended (D23). The read and its side effects happen whatever `r` is. -/
def execIn (r : Reg) (port : Word) (s : State) : Result :=
  match readByte s port with
  | none => .next (awaitInput s)
  | some (v, s1) => .next (retire (writeReg s1 r (zextByte v)))

/-- OUT port,r (R251): any address, the low byte of the register (D23). -/
def execOut (port : Word) (r : Reg) (s : State) : Result := .next (retire (writeByte s port (loByte (readReg s r))))

/-- HLT (R252). -/
def execHlt (s : State) : Result := .next (halt s)

end Sys2Proof.Machine
end

