-- ==== Sys2Proof/Machine/Logic.lean ====
section
/-! DEFINITION. Logic and shift instructions (spec/43_logic_shift.md). Every one writes Z, C, N and O. -/

namespace Sys2Proof.Machine

/-- AND r1,r2 (R201). -/
def execAnd (rd rs : Reg) (s : State) : Result := retireAlu s rd (aluAnd (readReg s rd) (readReg s rs))

/-- OR r1,r2 (R202). -/
def execOr (rd rs : Reg) (s : State) : Result := retireAlu s rd (aluOr (readReg s rd) (readReg s rs))

/-- XOR r1,r2 (R203). -/
def execXor (rd rs : Reg) (s : State) : Result := retireAlu s rd (aluXor (readReg s rd) (readReg s rs))

/-- NOT r (R204). -/
def execNot (r : Reg) (s : State) : Result := retireAlu s r (aluNot (readReg s r))

/-- SHL r,k (R205). -/
def execShl (r : Reg) (k : Byte) (s : State) : Result := retireAlu s r (aluShl (readReg s r) k)

/-- SHR r,k (R206). -/
def execShr (r : Reg) (k : Byte) (s : State) : Result := retireAlu s r (aluShr (readReg s r) k)

end Sys2Proof.Machine
end

