-- ==== Sys2Proof/Machine/Dispatch.lean ====
section
/-! DEFINITION. The dispatch: one arm per instruction, each one call of its meaning (R98, R131 `execute`). -/

namespace Sys2Proof.Machine

def exec (i : Instr) (s : State) : Host.Outcome State Fault Refusal :=
  match i with
  | .nop => Sys2Proof.Machine.execNop s
  | .loadImm r imm => Sys2Proof.Machine.execLoadImm r imm s
  | .loadMem r addr => Sys2Proof.Machine.execLoadMem r addr s
  | .store addr r => Sys2Proof.Machine.execStore addr r s
  | .mov rd rs => Sys2Proof.Machine.execMov rd rs s
  | .push r => Sys2Proof.Machine.execPush r s
  | .pop r => Sys2Proof.Machine.execPop r s
  | .add rd rs => Sys2Proof.Machine.execAdd rd rs s
  | .addi r imm => Sys2Proof.Machine.execAddi r imm s
  | .sub rd rs => Sys2Proof.Machine.execSub rd rs s
  | .subi r imm => Sys2Proof.Machine.execSubi r imm s
  | .mul rd rs => Sys2Proof.Machine.execMul rd rs s
  | .div rd rs => Sys2Proof.Machine.execDiv rd rs s
  | .inc r => Sys2Proof.Machine.execInc r s
  | .dec r => Sys2Proof.Machine.execDec r s
  | .and rd rs => Sys2Proof.Machine.execAnd rd rs s
  | .or rd rs => Sys2Proof.Machine.execOr rd rs s
  | .xor rd rs => Sys2Proof.Machine.execXor rd rs s
  | .not r => Sys2Proof.Machine.execNot r s
  | .shl r k => Sys2Proof.Machine.execShl r k s
  | .shr r k => Sys2Proof.Machine.execShr r k s
  | .cmp rd rs => Sys2Proof.Machine.execCmp rd rs s
  | .cmpi r imm => Sys2Proof.Machine.execCmpi r imm s
  | .jmp addr => Sys2Proof.Machine.execJmp addr s
  | .jz addr => Sys2Proof.Machine.execJz addr s
  | .jnz addr => Sys2Proof.Machine.execJnz addr s
  | .jc addr => Sys2Proof.Machine.execJc addr s
  | .jnc addr => Sys2Proof.Machine.execJnc addr s
  | .call addr => Sys2Proof.Machine.execCall addr s
  | .ret => Sys2Proof.Machine.execRet s
  | .inPort r port => Sys2Proof.Machine.execIn r port s
  | .outPort port r => Sys2Proof.Machine.execOut port r s
  | .hlt => Sys2Proof.Machine.execHlt s

end Sys2Proof.Machine
end

