-- ==== Sys2Proof/Machine/Fetch.lean ====
section
/-! DEFINITION. Fetch and decode (spec/40_execution_cycle.md R131 to R134, R141). -/

namespace Sys2Proof.Machine

/-- The byte at the cursor, and the cursor moved past it (R132, R134). -/
def fetchByte (s : State) : Option (Byte × State) :=
  match readByte s s.cursor with
  | none => none
  | some (v, s1) => some (v, { s1 with cursor := s1.cursor + 1#16 })

/-- `n` bytes from the cursor, in address order (R134). -/
def fetchBytes : Nat → State → Option (List Byte × State)
  | 0, s => some ([], s)
  | n + 1, s =>
    match fetchByte s with
    | none => none
    | some (v, s1) =>
      match fetchBytes n s1 with
      | none => none
      | some (vs, s2) => some (v :: vs, s2)

/-- The timer tick (R133). -/
def tick (s : State) : State := if s.timerEnabled then { s with timerValue := s.timerValue + 1#16 } else s

/-- The start of a step: the cursor at `PC` (R131). -/
def beginStep (s : State) : State := { s with cursor := s.pc }

/-- How the fetch of a step ends. -/
inductive Fetched where
  /-- A byte of the instruction is to come from STDIN and the host has not answered (R142). -/
  | waits
  /-- The opcode is illegal; the timer has ticked and no operand byte has been read (R141). -/
  | unknown (s : State)
  /-- The instruction, and the state it executes in: cursor past its last byte, timer ticked. -/
  | fetched (i : Instr) (s : State)

/-- The operand bytes of an opcode, and the instruction they make (R134). -/
def fetchOperands (sh : Shape) (s : State) : Fetched :=
  match fetchBytes sh.operandBytes s with
  | none => .waits
  | some (ops, s1) => .fetched (sh.build ops) s1

/-- Opcode fetch, timer tick, decode, operand fetch, in the order of R131. -/
def fetch (s : State) : Fetched :=
  match fetchByte (beginStep s) with
  | none => .waits
  | some (op, s1) =>
    match shapeOf op with
    | none => .unknown (tick s1)
    | some sh => fetchOperands sh (tick s1)

/-- The `n` bytes from an address on, modulo 0x10000, are all memory and not ports. -/
def noPortIn (start : Word) : Nat → Bool
  | 0 => true
  | n + 1 => !isPort start && noPortIn (start + 1#16) n

/-- Where a program word given from outside is placed: at `PC`, or at the program base when a port lies in the four bytes
from `PC` on, since no byte placed there would be fetched (R73, R77). -/
def placementBase (s : State) : Word := if noPortIn s.pc 4 then s.pc else Config.programBase

/-- The state with the bytes of one instruction placed where the next step fetches it, as a raw copy (R302), and a core that
is not halted (R140). -/
def placeInstruction (s : State) (bytes : List Byte) : State :=
  { s with mem := s.mem.copyIn (placementBase s) bytes, pc := placementBase s, halted := false }

end Sys2Proof.Machine
end

