-- ==== Sys2Proof/Machine/Step.lean ====
section
/-! DEFINITION. The step (spec/40_execution_cycle.md R131), and the host's way to place one instruction. -/

namespace Sys2Proof.Machine

/-- One step (R131): nothing on a halted core (R140); else fetch, and execute what was fetched. -/
def step (s : State) : Host.Outcome State Fault Refusal :=
  if s.halted then .next (alreadyHalted s)
  else
    match fetch s with
    | .waits => .next (awaitInput s)
    | .unknown s1 => .next (raiseFatal .unknownOpcode s1)
    | .fetched i s1 => settle s (exec i s1)

/-- `s` with the instruction of a table word stored where `step` fetches its next instruction (log entry 6). -/
def State.withFetchWord (s : State) (nbits w : Nat) : State := placeInstruction s (tableWordBytes nbits w)

end Sys2Proof.Machine
end

