-- ==== Sys2Proof/Machine/HostActions.lean ====
section
/-! DEFINITION. What the host may do between steps (spec/70_reset_and_hazards.md R300 to R308, R315). -/

namespace Sys2Proof.Machine

/-- `reset` (R300): every piece of core state to its reset value; the host streams are not touched. -/
def hostReset (s : State) : State :=
  { State.reset with input := s.input, inputEnded := s.inputEnded, output := s.output }

/-- Why a program is not loaded (R302, R303; the file errors are out of scope). -/
inductive LoaderError where
  | programOverflow
deriving DecidableEq, Repr

/-- `load_program(bytes, start)` (R302): a raw copy and `PC <- start`, or an error and nothing changed. -/
def loadProgram (bytes : List Byte) (start : Word) (s : State) : Except LoaderError State :=
  if 0x10000 < start.toNat + bytes.length then .error .programOverflow
  else .ok { s with mem := s.mem.copyIn start bytes, pc := start }

/-- The host supplies input bytes (R80, R315). Nothing follows an end of stream (D18: "EOF is sticky"). -/
def supplyInput (s : State) (bytes : List Byte) : State :=
  if s.inputEnded then s else { s with input := s.input ++ bytes }

/-- The host signals end of stream (R80, R315). -/
def endInput (s : State) : State := { s with inputEnded := true }

/-- How the first `fuel` steps of a run end. -/
inductive RunEnd where
  /-- A step left the core halted: HLT, or a runtime error, which `lastStep` names (R308). -/
  | ended (s : State)
  /-- A step waits on STDIN (R312). -/
  | waits (s : State)
  /-- The run goes on after `fuel` steps. -/
  | unfinished (s : State)
  /-- A step met an instruction without a meaning. -/
  | stopped (r : Refusal)
deriving DecidableEq, Repr

/-- The loop of `run` (R304), at most `fuel` steps of it. -/
def runLoop : Nat → State → RunEnd
  | 0, s => .unfinished s
  | fuel + 1, s =>
    match step s with
    | .next t => if t.lastStep = .waiting then .waits t else if t.halted then .ended t else runLoop fuel t
    | .fault r => nomatch r
    | .refused r => .stopped r

/-- `run()` (R304), at most `fuel` steps of it: `running <- true`, `halted <- false`, step to the end. -/
def run (fuel : Nat) (s : State) : RunEnd := runLoop fuel (startRun s)

/-- The states of R306. -/
inductive RunState where
  | reset
  | running
  | halted
deriving DecidableEq, Repr

/-- R306: the state that `halted` and `running` spell; both at once is none of them. -/
def runState (s : State) : Option RunState :=
  match s.halted, s.running with
  | false, false => some .reset
  | false, true => some .running
  | true, false => some .halted
  | true, true => none

end Sys2Proof.Machine
end

