-- ==== Sys2Proof/Safety.lean ====
section
/-! DEFINITION. The words the statements are written in: the invariant of the machine, when a read is answered, what a read
finds, and the spec's formulas on numbers, each written from the spec and not from the model's own operations. -/

namespace Sys2Proof.Machine

/-! ### The invariant -/

/-- What holds of the machine after reset and after every step: the memory is in canonical form; bits 3..0 of `F` are 0
(R26); `halted` and `running` spell one of the states of R306; and a step that ended in a runtime error left the core
halted with `PC` at the offending opcode (R136). -/
structure Inv (s : State) : Prop where
  memory : s.mem.wf = true
  reservedFlags : s.flags &&& 0x0F#8 = 0#8
  oneRunState : runState s ≠ none
  fatalHalts : ∀ kind pc0, s.lastStep = .fatal kind pc0 → s.halted = true ∧ s.pc = pc0

/-! ### Reads -/

/-- The host has a byte or end of stream for the next STDIN read (R80). -/
def inputReady (s : State) : Bool := !s.input.isEmpty || s.inputEnded

/-- A byte read at this address does not wait (R312). -/
def readReady (s : State) (addr : Word) : Bool := addr != 0xFF01#16 || inputReady s

/-- A word read at this address does not wait. -/
def wordReady (s : State) (addr : Word) : Bool := readReady s addr && readReady s (addr + 1#16)

/-- The byte that a read at this address finds, when it does not wait (R55, R63, R64, R67, R69). -/
def byteAt (s : State) (addr : Word) : Byte :=
  if addr = 0xFF00#16 then 0x00#8
  else if addr = 0xFF01#16 then s.input.headD 0x00#8
  else if addr = 0xFF02#16 then (if s.timerEnabled then 0x01#8 else 0x00#8)
  else if addr = 0xFF03#16 then BitVec.ofNat 8 s.timerValue.toNat
  else s.mem.read addr.toNat

/-- The word that a read at this address finds: `lo + 0x100 * hi` (R57). Its two bytes come from different addresses, and
a read of one leaves what the other finds as it was. -/
def wordAt (s : State) (addr : Word) : Word :=
  BitVec.ofNat 16 ((byteAt s addr).toNat + 0x100 * (byteAt s (addr + 1#16)).toNat)

/-- What is left of the host input after a byte read at this address (R64, R70). -/
def inputAfterByte (s : State) (addr : Word) : List Byte := if addr = 0xFF01#16 then s.input.tail else s.input

/-- What is left of the host input after a word read at this address (R71, R72). -/
def inputAfterWord (s : State) (addr : Word) : List Byte :=
  if addr = 0xFF01#16 ∨ addr + 1#16 = 0xFF01#16 then s.input.tail else s.input

/-! ### Bytes fetched one after another (R55, R77, R132, R134)

The addresses of one fetch differ, and what a read finds at one of them does not depend on a read of another; so these say
what the reads find without running them. -/

/-- The bytes that `n` reads find, from this address on. -/
def bytesFound (s : State) (start : Word) : Nat → List Byte
  | 0 => []
  | n + 1 => byteAt s start :: bytesFound s (start + 1#16) n

/-- None of `n` reads from this address on waits. -/
def bytesReady (s : State) (start : Word) : Nat → Bool
  | 0 => true
  | n + 1 => readReady s start && bytesReady s (start + 1#16) n

/-- What is left of the host input after `n` reads from this address on: one byte less when STDIN is among them. -/
def inputAfterBytes (s : State) (start : Word) : Nat → List Byte
  | 0 => s.input
  | n + 1 => if start = 0xFF01#16 then s.input.tail else inputAfterBytes s (start + 1#16) n

/-! ### Ends of a step -/

/-- `t` with the writeback of a step whose instruction executed in `s` (R137). A value that `t` wrote to `PC` is lost in it
(R138; the spec's decision D2). -/
def completed (s t : State) : State := { t with pc := s.cursor, cycles := s.cycles + 1#64, lastStep := .executed }

/-- The timer value after the tick of a step that began with this timer (R133). -/
def ticked (s : State) : Word := if s.timerEnabled = true then BitVec.ofNat 16 (s.timerValue.toNat + 1) else s.timerValue

/-- `s` and `t` agree on the four general registers, the flags, the run state and the host's input. -/
def sameInside (s t : State) : Prop :=
  t.a = s.a ∧ t.b = s.b ∧ t.c = s.c ∧ t.d = s.d ∧ t.flags = s.flags ∧ t.halted = s.halted ∧ t.running = s.running ∧
  t.input = s.input ∧ t.inputEnded = s.inputEnded

/-! ### Writes -/

/-- What a word store of `v` at `addr` does to memory, to the output and to the timer, byte by byte (R58, R62, R65 to R68,
R71): every byte of memory but the two named is as before, the ports' cells too (R73). -/
structure WordStored (s t : State) (addr v : Word) : Prop where
  elsewhere : ∀ n : Nat, n ≠ addr.toNat → n ≠ (addr + 1#16).toNat → t.mem.read n = s.mem.read n
  low : isPort addr = false → t.mem.read addr.toNat = BitVec.ofNat 8 v.toNat
  high : isPort (addr + 1#16) = false → t.mem.read (addr + 1#16).toNat = BitVec.ofNat 8 (v.toNat / 0x100)
  lowPort : isPort addr = true → t.mem.read addr.toNat = s.mem.read addr.toNat
  highPort : isPort (addr + 1#16) = true → t.mem.read (addr + 1#16).toNat = s.mem.read (addr + 1#16).toNat
  output : t.output =
    if addr = 0xFF00#16 then s.output ++ [BitVec.ofNat 8 v.toNat]
    else if addr + 1#16 = 0xFF00#16 then s.output ++ [BitVec.ofNat 8 (v.toNat / 0x100)]
    else s.output
  timerEnabled : t.timerEnabled =
    if addr = 0xFF02#16 then decide (v.toNat % 0x100 ≠ 0)
    else if addr + 1#16 = 0xFF02#16 then decide (v.toNat / 0x100 ≠ 0)
    else s.timerEnabled
  timerValue : t.timerValue =
    if addr = 0xFF02#16 then BitVec.ofNat 16 (v.toNat / 0x100)
    else if addr + 1#16 = 0xFF02#16 then (if v.toNat / 0x100 ≠ 0 then 0#16 else s.timerValue)
    else if addr = 0xFF03#16 then BitVec.ofNat 16 (v.toNat % 0x100)
    else s.timerValue

/-! ### The flags byte on numbers -/

/-- The flags byte with Z, C, N, O written and bits 3..0 as they were, by the masks of R25. -/
def flagsByte (old : Byte) (z c n o : Bool) : Byte :=
  (old &&& 0x0F#8) ||| (if z then 0x80#8 else 0#8) ||| (if c then 0x40#8 else 0#8) ||| (if n then 0x20#8 else 0#8)
    ||| (if o then 0x10#8 else 0#8)

/-- The flags of `alu_add` on unbounded numbers (R180). -/
def addFlags (old : Byte) (x y : Word) : Byte :=
  let r := x.toNat + y.toNat
  flagsByte old (r &&& 0xFFFF == 0) (decide (0xFFFF < r)) (r &&& 0x8000 != 0)
    (((x.toNat ^^^ r) &&& (y.toNat ^^^ r)) &&& 0x8000 != 0)

/-- The flags of `alu_sub` with its 32-bit difference (R181). -/
def subFlags (old : Byte) (x y : Word) : Byte :=
  let r := (x.toNat + 0x100000000 - y.toNat) % 0x100000000
  flagsByte old (r &&& 0xFFFF == 0) (decide (x.toNat < y.toNat)) (r &&& 0x8000 != 0)
    (((x.toNat ^^^ y.toNat) &&& (x.toNat ^^^ r)) &&& 0x8000 != 0)

/-- The flags of an instruction that takes Z and N from a number and gives C, with O = 0. -/
def resultFlags (old : Byte) (r : Nat) (c : Bool) : Byte :=
  flagsByte old (r &&& 0xFFFF == 0) c (r &&& 0x8000 != 0) false

/-! ### Kinds of instruction -/

/-- The instructions that set the cursor (R230). -/
def transfers : Instr → Bool
  | .nop => false
  | .loadImm _ _ => false
  | .loadMem _ _ => false
  | .store _ _ => false
  | .mov _ _ => false
  | .push _ => false
  | .pop _ => false
  | .add _ _ => false
  | .addi _ _ => false
  | .sub _ _ => false
  | .subi _ _ => false
  | .mul _ _ => false
  | .div _ _ => false
  | .inc _ => false
  | .dec _ => false
  | .and _ _ => false
  | .or _ _ => false
  | .xor _ _ => false
  | .not _ => false
  | .shl _ _ => false
  | .shr _ _ => false
  | .cmp _ _ => false
  | .cmpi _ _ => false
  | .jmp _ => true
  | .jz _ => true
  | .jnz _ => true
  | .jc _ => true
  | .jnc _ => true
  | .call _ => true
  | .ret => true
  | .inPort _ _ => false
  | .outPort _ _ => false
  | .hlt => false

/-- The instructions that write through the memory interface (R61). -/
def storesBytes : Instr → Bool
  | .nop => false
  | .loadImm _ _ => false
  | .loadMem _ _ => false
  | .store _ _ => true
  | .mov _ _ => false
  | .push _ => true
  | .pop _ => false
  | .add _ _ => false
  | .addi _ _ => false
  | .sub _ _ => false
  | .subi _ _ => false
  | .mul _ _ => false
  | .div _ _ => false
  | .inc _ => false
  | .dec _ => false
  | .and _ _ => false
  | .or _ _ => false
  | .xor _ _ => false
  | .not _ => false
  | .shl _ _ => false
  | .shr _ _ => false
  | .cmp _ _ => false
  | .cmpi _ _ => false
  | .jmp _ => false
  | .jz _ => false
  | .jnz _ => false
  | .jc _ => false
  | .jnc _ => false
  | .call _ => true
  | .ret => false
  | .inPort _ _ => false
  | .outPort _ _ => true
  | .hlt => false

/-- The instructions that write the flags (R27). -/
def writesFlags : Instr → Bool
  | .nop => false
  | .loadImm _ _ => false
  | .loadMem _ _ => false
  | .store _ _ => false
  | .mov _ _ => false
  | .push _ => false
  | .pop _ => false
  | .add _ _ => true
  | .addi _ _ => true
  | .sub _ _ => true
  | .subi _ _ => true
  | .mul _ _ => true
  | .div _ _ => true
  | .inc _ => true
  | .dec _ => true
  | .and _ _ => true
  | .or _ _ => true
  | .xor _ _ => true
  | .not _ => true
  | .shl _ _ => true
  | .shr _ _ => true
  | .cmp _ _ => true
  | .cmpi _ _ => true
  | .jmp _ => false
  | .jz _ => false
  | .jnz _ => false
  | .jc _ => false
  | .jnc _ => false
  | .call _ => false
  | .ret => false
  | .inPort _ _ => false
  | .outPort _ _ => false
  | .hlt => false

/-- The registers an instruction may write: its destinations, `SP` where it uses the stack, and `PC` by the writeback. -/
def writesReg (i : Instr) (q : Reg) : Bool :=
  match i with
  | .nop => false
  | .loadImm rd _ => rd == q
  | .loadMem rd _ => rd == q
  | .store _ _ => false
  | .mov rd _ => rd == q
  | .push _ => q == .sp
  | .pop r => r == q || q == .sp
  | .add rd _ => rd == q
  | .addi rd _ => rd == q
  | .sub rd _ => rd == q
  | .subi rd _ => rd == q
  | .mul rd _ => rd == q
  | .div rd rs => rd == q || rs == q
  | .inc rd => rd == q
  | .dec rd => rd == q
  | .and rd _ => rd == q
  | .or rd _ => rd == q
  | .xor rd _ => rd == q
  | .not rd => rd == q
  | .shl rd _ => rd == q
  | .shr rd _ => rd == q
  | .cmp _ _ => false
  | .cmpi _ _ => false
  | .jmp _ => false
  | .jz _ => false
  | .jnz _ => false
  | .jc _ => false
  | .jnc _ => false
  | .call _ => q == .sp
  | .ret => q == .sp
  | .inPort rd _ => rd == q
  | .outPort _ _ => false
  | .hlt => false

/-- The register that an index names (R5, R93, R94). -/
def regOf (n : Nat) : Reg := Reg.ofByte (BitVec.ofNat 8 n)

/-- The word of two operand bytes, low byte first (R96). -/
def word16 (lo hi : Byte) : Word := BitVec.ofNat 16 (lo.toNat + 0x100 * hi.toNat)

/-- These bytes, whatever follows them, decode to this instruction. -/
def decodesTo (bytes : List Byte) (i : Instr) : Prop := ∀ rest, decode (bytes ++ rest) = .ok (i, rest)

/-- The 223 illegal opcode values, by the ranges of R99. -/
def illegalOpcode (n : Nat) : Prop :=
  (0x07 ≤ n ∧ n ≤ 0x0F) ∨ (0x18 ≤ n ∧ n ≤ 0x1F) ∨ (0x26 ≤ n ∧ n ≤ 0x2F) ∨ (0x32 ≤ n ∧ n ≤ 0x3F) ∨
  (0x47 ≤ n ∧ n ≤ 0x4F) ∨ (0x52 ≤ n ∧ n ≤ 0xFE)

/-- The bytes that stand in memory at an address and after it, modulo 0x10000. -/
def bytesAt (s : State) (start : Word) : Nat → List Byte
  | 0 => []
  | n + 1 => s.mem.read start.toNat :: bytesAt s (start + 1#16) n

end Sys2Proof.Machine
end

