-- ==== Sys2Proof/Certificates/Slice0/Obligations.lean ====
section
/-! DEFINITION. The statements for the provers. OBLIGATIONS.json gives each its rules and its basis.
`completed s t` is `t` with the writeback of a step whose instruction executed in `s`; an equation with a state written out
says of every field not named that it is unchanged, memory byte by byte included. -/

open Sys2Proof Sys2Proof.Machine

/-! ### Registers, encoding, decoding -/

/-- R5: reading and writing a register operand, for every index 0..255. -/
def Obligations.RegisterOperandAccess : Prop :=
  ∀ (n : Byte) (v : Word) (s : State),
    readReg s (Reg.ofByte n) =
      (if n.toNat = 0 then s.a else if n.toNat = 1 then s.b else if n.toNat = 2 then s.c else if n.toNat = 3 then s.d
        else if n.toNat = 4 then s.sp else if n.toNat = 5 then s.pc else 0x0000#16) ∧
    (n.toNat ≤ 5 → readReg (writeReg s (Reg.ofByte n) v) (Reg.ofByte n) = v) ∧
    (5 < n.toNat → writeReg s (Reg.ofByte n) v = s) ∧
    (∀ m : Byte, m ≠ n → readReg (writeReg s (Reg.ofByte n) v) (Reg.ofByte m) = readReg s (Reg.ofByte m)) ∧
    { writeReg s (Reg.ofByte n) v with a := s.a, b := s.b, c := s.c, d := s.d, sp := s.sp, pc := s.pc } = s

/-- R92, R94, R96, R98: for every value of the operand bytes, each opcode's bytes decode to its instruction with the
operand fields of the table. (AND, OR, XOR, SHL, SHR and the jumps take the opcode values that the spec's decision D38
gives them, and a `reg` byte is not masked by its decision D3.) -/
def Obligations.OpcodeMap : Prop :=
  ∀ b1 b2 b3 : Byte,
    let r1 := regOf (b1.toNat / 16)
    let r2 := regOf (b1.toNat % 16)
    let r := regOf b1.toNat
    decodesTo [0x00#8] .nop ∧
    decodesTo [0x01#8, b1, b2, b3] (.loadImm r (word16 b2 b3)) ∧
    decodesTo [0x02#8, b1, b2, b3] (.loadMem r (word16 b2 b3)) ∧
    decodesTo [0x03#8, b1, b2, b3] (.store (word16 b1 b2) (regOf b3.toNat)) ∧
    decodesTo [0x04#8, b1] (.mov r1 r2) ∧
    decodesTo [0x05#8, b1] (.push r) ∧
    decodesTo [0x06#8, b1] (.pop r) ∧
    decodesTo [0x10#8, b1] (.add r1 r2) ∧
    decodesTo [0x11#8, b1, b2, b3] (.addi r (word16 b2 b3)) ∧
    decodesTo [0x12#8, b1] (.sub r1 r2) ∧
    decodesTo [0x13#8, b1, b2, b3] (.subi r (word16 b2 b3)) ∧
    decodesTo [0x14#8, b1] (.mul r1 r2) ∧
    decodesTo [0x15#8, b1] (.div r1 r2) ∧
    decodesTo [0x16#8, b1] (.inc r) ∧
    decodesTo [0x17#8, b1] (.dec r) ∧
    decodesTo [0x20#8, b1] (.and r1 r2) ∧
    decodesTo [0x21#8, b1] (.or r1 r2) ∧
    decodesTo [0x22#8, b1] (.xor r1 r2) ∧
    decodesTo [0x23#8, b1] (.not r) ∧
    decodesTo [0x24#8, b1, b2] (.shl r b2) ∧
    decodesTo [0x25#8, b1, b2] (.shr r b2) ∧
    decodesTo [0x30#8, b1] (.cmp r1 r2) ∧
    decodesTo [0x31#8, b1, b2, b3] (.cmpi r (word16 b2 b3)) ∧
    decodesTo [0x40#8, b1, b2] (.jmp (word16 b1 b2)) ∧
    decodesTo [0x41#8, b1, b2] (.jz (word16 b1 b2)) ∧
    decodesTo [0x42#8, b1, b2] (.jnz (word16 b1 b2)) ∧
    decodesTo [0x43#8, b1, b2] (.jc (word16 b1 b2)) ∧
    decodesTo [0x44#8, b1, b2] (.jnc (word16 b1 b2)) ∧
    decodesTo [0x45#8, b1, b2] (.call (word16 b1 b2)) ∧
    decodesTo [0x46#8] .ret ∧
    decodesTo [0x50#8, b1, b2, b3] (.inPort r (word16 b2 b3)) ∧
    decodesTo [0x51#8, b1, b2, b3] (.outPort (word16 b1 b2) (regOf b3.toNat)) ∧
    decodesTo [0xFF#8] .hlt

/-- R99, R141, R136: the opcode bytes without an instruction are exactly the ranges of R99, and a step that fetches one, from
memory or through a port (whose read takes effect), ticks the timer, reads no operand byte, writes nothing, and ends as
Fatal(UnknownOpcode, pc0). (The fetch through the ports is the spec's decision D5, the tick and the unread operands D17, that
`PC`, `cycles` and `running` are left so D15; `lastStep` is log entry 4.) -/
def Obligations.UnknownOpcodeStep : Prop :=
  (∀ op : Byte, shapeOf op = none ↔ illegalOpcode op.toNat) ∧
  ∀ s : State, s.halted = false → readReady s s.pc = true → illegalOpcode (byteAt s s.pc).toNat →
    step s = .next { s with
      cursor := s.pc + 1#16, input := inputAfterByte s s.pc, timerValue := ticked s, halted := true, running := false,
      lastStep := .fatal .unknownOpcode s.pc }

/-- Decoding the encoding of any well-formed instruction, whatever follows it, gives the instruction back: no bit of any
operand is dropped. -/
def Obligations.DecodeOfEncode : Prop :=
  ∀ i : Instr, i.wellFormed = true → ∀ rest, decode (encode i ++ rest) = .ok (i, rest)

/-- R92, R98: whatever decodes is well formed and is the encoding of what it decodes to, so that two different byte strings
are never the same instruction. (That every legal opcode's bytes do decode is `OpcodeMap`.) -/
def Obligations.EncodeOfDecode : Prop :=
  ∀ (bytes rest : List Byte) (i : Instr), decode bytes = .ok (i, rest) → i.wellFormed = true ∧ bytes = encode i ++ rest

/-- The bytes of eight of the spec's own examples (in R163, R165, R235, R251; in 95_test_vectors.md 2.3, 2.4 and P1) decode to
the instructions the spec says they are. -/
def Obligations.ExampleWordsDecode : Prop :=
  decode [0x01#8, 0x00#8, 0x34#8, 0x12#8] = .ok (.loadImm .a 0x1234#16, []) ∧
  decode [0x03#8, 0x00#8, 0x20#8, 0x00#8] = .ok (.store 0x2000#16 .a, []) ∧
  decode [0x03#8, 0x02#8, 0x20#8, 0x01#8] = .ok (.store 0x2002#16 .b, []) ∧
  decode [0x15#8, 0x12#8] = .ok (.div .b .c, []) ∧
  decode [0x24#8, 0x00#8, 0x0F#8] = .ok (.shl .a 15#8, []) ∧
  decode [0x31#8, 0x00#8, 0x00#8, 0x80#8] = .ok (.cmpi .a 0x8000#16, []) ∧
  decode [0x42#8, 0x08#8, 0x01#8] = .ok (.jnz 0x0108#16, []) ∧
  decode [0x51#8, 0x00#8, 0xFF#8, 0x00#8] = .ok (.outPort 0xFF00#16 .a, [])

/-! ### Reset and memory -/

/-- R36, R300: what reset leaves, and that the host's reset leaves the host's streams alone. (`timer_value` is the spec's
decision D9, `running` its inference, reset as an action its decision D27.) -/
def Obligations.ResetValues : Prop :=
  State.reset.a = 0x0000#16 ∧ State.reset.b = 0x0000#16 ∧ State.reset.c = 0x0000#16 ∧ State.reset.d = 0x0000#16 ∧
  State.reset.sp = 0xFEFF#16 ∧ State.reset.pc = 0x0100#16 ∧ State.reset.flags = 0x00#8 ∧
  (∀ n, State.reset.mem.read n = 0x00#8) ∧ State.reset.halted = false ∧ State.reset.running = false ∧
  State.reset.cycles = 0#64 ∧ State.reset.timerEnabled = false ∧ State.reset.timerValue = 0x0000#16 ∧
  ∀ s : State, (hostReset s).input = s.input ∧ (hostReset s).inputEnded = s.inputEnded ∧ (hostReset s).output = s.output ∧
    hostReset s = { State.reset with input := s.input, inputEnded := s.inputEnded, output := s.output }

/-- The memory array: a read finds the last write, a write leaves every other byte, the canonical form is kept, and two
memories in canonical form that read alike everywhere are equal data. -/
def Obligations.MemoryLaws : Prop :=
  ∀ (m : Memory) (n : Nat) (v : Byte),
    (m.write n v).read n = v ∧
    (∀ k, k ≠ n → (m.write n v).read k = m.read k) ∧
    (m.wf = true → n < 0x10000 → (m.write n v).wf = true) ∧
    ∀ m' : Memory, m.wf = true → m'.wf = true → (∀ k, m.read k = m'.read k) → m = m'

/-- R67, R69: the timer ports read. -/
def Obligations.TimerPortReads : Prop :=
  ∀ s : State,
    (s.timerEnabled = true → readByte s 0xFF02#16 = some (0x01#8, s)) ∧
    (s.timerEnabled = false → readByte s 0xFF02#16 = some (0x00#8, s)) ∧
    readByte s 0xFF03#16 = some (BitVec.ofNat 8 (s.timerValue.toNat % 0x100), s)

/-- R63, R64, R80: a STDIN read takes the next byte, gives 0 at end of stream for ever, and waits while the host has said
nothing (`none`); a STDOUT read gives 0. (The sticky end is in the spec's decision D18, the STDOUT read its decision D6; the
input as a list in State is the model's choice, log entry 2.) -/
def Obligations.StdinReads : Prop :=
  ∀ (s : State) (v : Byte) (rest : List Byte),
    readByte { s with input := v :: rest } 0xFF01#16 = some (v, { s with input := rest }) ∧
    readByte { s with input := [], inputEnded := true } 0xFF01#16 =
      some (0x00#8, { s with input := [], inputEnded := true }) ∧
    readByte { s with input := [], inputEnded := false } 0xFF01#16 = none ∧
    readByte s 0xFF00#16 = some (0x00#8, s)

/-- R62, R65, R66, R68: a byte write to each of the four ports. (The zero write is the spec's decision D7, the upper byte of
the timer value D8, the STDIN write D6.) -/
def Obligations.PortWrites : Prop :=
  ∀ (s : State) (v : Byte),
    writeByte s 0xFF00#16 v = { s with output := s.output ++ [v] } ∧
    writeByte s 0xFF01#16 v = s ∧
    (v.toNat ≠ 0 → writeByte s 0xFF02#16 v = { s with timerEnabled := true, timerValue := 0x0000#16 }) ∧
    (v.toNat = 0 → writeByte s 0xFF02#16 v = { s with timerEnabled := false }) ∧
    writeByte s 0xFF03#16 v = { s with timerValue := BitVec.ofNat 16 v.toNat }

/-- R52, R55, R56: at an address that is no port, a byte read gives the cell and changes nothing, and a byte write changes
that cell alone. -/
def Obligations.RamAccess : Prop :=
  ∀ (s : State) (addr : Word) (v : Byte),
    addr ≠ 0xFF00#16 → addr ≠ 0xFF01#16 → addr ≠ 0xFF02#16 → addr ≠ 0xFF03#16 →
    readByte s addr = some (s.mem.read addr.toNat, s) ∧
    readByte (writeByte s addr v) addr = some (v, writeByte s addr v) ∧
    (∀ n, n ≠ addr.toNat → (writeByte s addr v).mem.read n = s.mem.read n) ∧
    { writeByte s addr v with mem := s.mem } = s

/-- R59: a stored word reads back, its low byte at the lower address, wherever neither address is a port (0xFFFF too, whose
second address is 0x0000; the order and the wrap are the spec's decision D4). -/
def Obligations.WordRoundTrip : Prop :=
  ∀ (s : State) (addr v : Word), isPort addr = false → isPort (addr + 1#16) = false →
    readWord (writeWord s addr v) addr = some (v, writeWord s addr v) ∧
    readByte (writeWord s addr v) addr = some (BitVec.ofNat 8 (v.toNat % 0x100), writeWord s addr v) ∧
    readByte (writeWord s addr v) (addr + 1#16) = some (BitVec.ofNat 8 (v.toNat / 0x100), writeWord s addr v)

/-- R71, R72: word accesses at the ports are two port accesses, low address first. (Which byte comes first is the spec's
decision D4; the handlers are those of D6 to D8.) -/
def Obligations.WordAcrossPorts : Prop :=
  ∀ (s : State) (v : Word) (x : Byte) (rest : List Byte),
    readWord { s with input := x :: rest } 0xFF00#16 = some (BitVec.ofNat 16 (0x100 * x.toNat), { s with input := rest }) ∧
    readWord { s with input := x :: rest } 0xFF01#16 =
      some (BitVec.ofNat 16 (x.toNat + if s.timerEnabled = true then 0x100 else 0), { s with input := rest }) ∧
    writeWord s 0xFF00#16 v = { s with output := s.output ++ [BitVec.ofNat 8 v.toNat] } ∧
    writeWord s 0xFF02#16 v =
      { s with timerEnabled := decide (v.toNat % 0x100 ≠ 0), timerValue := BitVec.ofNat 16 (v.toNat / 0x100) }

/-! ### The ALU -/

/-- R180: the sum and the flags of `alu_add`, on unbounded numbers, and when O is 1. -/
def Obligations.AluAddFormula : Prop :=
  ∀ x y : Word,
    (aluAdd x y).value.toNat = (x.toNat + y.toNat) % 0x10000 ∧
    ((aluAdd x y).z = true ↔ (x.toNat + y.toNat) &&& 0xFFFF = 0) ∧
    ((aluAdd x y).n = true ↔ (x.toNat + y.toNat) &&& 0x8000 ≠ 0) ∧
    ((aluAdd x y).c = true ↔ 0xFFFF < x.toNat + y.toNat) ∧
    ((aluAdd x y).o = true ↔
      ((x.toNat ^^^ (x.toNat + y.toNat)) &&& (y.toNat ^^^ (x.toNat + y.toNat))) &&& 0x8000 ≠ 0) ∧
    ((aluAdd x y).o = true ↔ x.msb = y.msb ∧ (aluAdd x y).value.msb ≠ x.msb)

/-- R181: the difference and the flags of `alu_sub`, with its 32-bit difference, and when O is 1. -/
def Obligations.AluSubFormula : Prop :=
  ∀ x y : Word,
    let r := (x.toNat + 0x100000000 - y.toNat) % 0x100000000
    (aluSub x y).value.toNat = r % 0x10000 ∧
    ((aluSub x y).z = true ↔ r &&& 0xFFFF = 0) ∧
    ((aluSub x y).n = true ↔ r &&& 0x8000 ≠ 0) ∧
    ((aluSub x y).c = true ↔ x.toNat < y.toNat) ∧
    ((aluSub x y).o = true ↔ ((x.toNat ^^^ y.toNat) &&& (x.toNat ^^^ r)) &&& 0x8000 ≠ 0) ∧
    ((aluSub x y).o = true ↔ x.msb ≠ y.msb ∧ (aluSub x y).value.msb ≠ x.msb)

/-- O read as two's complement: the signed sum, or difference, lies outside -32768..32767. (This reading is the spec's own
general knowledge, 93_implementation_defined.md G-1 and G-2, not a rule of its source.) -/
def Obligations.SignedOverflowReading : Prop :=
  ∀ x y : Word,
    ((aluAdd x y).o = true ↔ x.toInt + y.toInt < -32768 ∨ 32767 < x.toInt + y.toInt) ∧
    ((aluSub x y).o = true ↔ x.toInt - y.toInt < -32768 ∨ 32767 < x.toInt - y.toInt)

/-! ### Arithmetic, logic, compare -/

/-- R182, R183: the bytes of ADD and ADDI, and all they do, for every register operand. (That a write to `PC` is lost in the
writeback, R137 and R138, is the spec's decision D2, that a register byte is not masked D3; log entry 7.) -/
def Obligations.AddInstructions : Prop :=
  (∀ b1 b2 b3 : Byte,
    decodesTo [0x10#8, b1] (.add (regOf (b1.toNat / 16)) (regOf (b1.toNat % 16))) ∧
    decodesTo [0x11#8, b1, b2, b3] (.addi (regOf b1.toNat) (word16 b2 b3))) ∧
  ∀ (rd rs : Reg) (imm : Word) (s : State),
    exec (.add rd rs) s = .next (completed s
      { writeReg s rd (BitVec.ofNat 16 ((readReg s rd).toNat + (readReg s rs).toNat)) with
        flags := addFlags s.flags (readReg s rd) (readReg s rs) }) ∧
    exec (.addi rd imm) s = .next (completed s
      { writeReg s rd (BitVec.ofNat 16 ((readReg s rd).toNat + imm.toNat)) with
        flags := addFlags s.flags (readReg s rd) imm })

/-- R184, R185: the bytes of SUB and SUBI, and all they do, for every register operand. (That a write to `PC` is lost in the
writeback, R137 and R138, is the spec's decision D2, that a register byte is not masked D3; log entry 7.) -/
def Obligations.SubInstructions : Prop :=
  (∀ b1 b2 b3 : Byte,
    decodesTo [0x12#8, b1] (.sub (regOf (b1.toNat / 16)) (regOf (b1.toNat % 16))) ∧
    decodesTo [0x13#8, b1, b2, b3] (.subi (regOf b1.toNat) (word16 b2 b3))) ∧
  ∀ (rd rs : Reg) (imm : Word) (s : State),
    exec (.sub rd rs) s = .next (completed s
      { writeReg s rd (BitVec.ofNat 16 ((readReg s rd).toNat + 0x10000 - (readReg s rs).toNat)) with
        flags := subFlags s.flags (readReg s rd) (readReg s rs) }) ∧
    exec (.subi rd imm) s = .next (completed s
      { writeReg s rd (BitVec.ofNat 16 ((readReg s rd).toNat + 0x10000 - imm.toNat)) with
        flags := subFlags s.flags (readReg s rd) imm })

/-- R188, R189: the bytes of INC and DEC, and all they do, for every register operand. (That a write to `PC` is lost in the
writeback, R137 and R138, is the spec's decision D2, that a register byte is not masked D3; log entry 7.) -/
def Obligations.IncDecInstructions : Prop :=
  (∀ b1 : Byte, decodesTo [0x16#8, b1] (.inc (regOf b1.toNat)) ∧ decodesTo [0x17#8, b1] (.dec (regOf b1.toNat))) ∧
  ∀ (r : Reg) (s : State),
    exec (.inc r) s = .next (completed s
      { writeReg s r (BitVec.ofNat 16 ((readReg s r).toNat + 1)) with
        flags := resultFlags s.flags ((readReg s r).toNat + 1) false }) ∧
    exec (.dec r) s = .next (completed s
      { writeReg s r (BitVec.ofNat 16 ((readReg s r).toNat + 0xFFFF)) with
        flags := resultFlags s.flags (((readReg s r).toNat + 0xFFFF) % 0x10000) false })

/-- R186: MUL keeps the low half of the unsigned product; C tells of the high half. (Unsigned operands are the spec's
decision D11, that a write to `PC` is lost D2.) -/
def Obligations.MulInstruction : Prop :=
  ∀ (rd rs : Reg) (s : State),
    let p := (readReg s rd).toNat * (readReg s rs).toNat
    exec (.mul rd rs) s = .next (completed s
      { writeReg s rd (BitVec.ofNat 16 p) with flags := resultFlags s.flags p (decide (p / 0x10000 ≠ 0)) })

/-- R187: DIV with a divisor that is not zero: quotient to the destination, then remainder to the source, flags from the
quotient. (Unsigned operands are the spec's decision D11, the order of the two writes its decision D12, that a write to `PC`
is lost D2.) -/
def Obligations.DivInstruction : Prop :=
  ∀ (rd rs : Reg) (s : State), (readReg s rs).toNat ≠ 0 →
    let q := (readReg s rd).toNat / (readReg s rs).toNat
    let m := (readReg s rd).toNat % (readReg s rs).toNat
    exec (.div rd rs) s = .next (completed s
      { writeReg (writeReg s rd (BitVec.ofNat 16 q)) rs (BitVec.ofNat 16 m) with
        flags := resultFlags s.flags q false })

/-- R271, R136: DIV by zero, an invalid divisor index included, halts the core, records the kind and the address of the DIV,
and changes nothing else: `PC` stays there, and every register, flag and byte of memory, `cycles` and the rest are as they
were; and no other instruction raises a runtime error. (That `PC` and `cycles` stay and `running` is cleared is the spec's
decision D15; the record in `lastStep` is log entry 4.) -/
def Obligations.DivideByZeroStops : Prop :=
  (∀ (rd rs : Reg) (s : State), (readReg s rs).toNat = 0 →
    exec (.div rd rs) s = .next { s with halted := true, running := false, lastStep := .fatal .divideByZero s.pc }) ∧
  (∀ (rd : Reg) (n : Byte) (s : State), 6 ≤ n.toNat →
    exec (.div rd (Reg.ofByte n)) s =
      .next { s with halted := true, running := false, lastStep := .fatal .divideByZero s.pc }) ∧
  ∀ (i : Instr) (s t : State) (kind : RuntimeError) (pc0 : Word),
    exec i s = .next t → t.lastStep = .fatal kind pc0 →
    kind = .divideByZero ∧ pc0 = s.pc ∧ ∃ rd rs, i = .div rd rs ∧ readReg s rs = 0#16

/-- R200 to R204: the bytes of AND, OR, XOR and NOT, and all they do, for every register operand. (That a write to `PC` is
lost in the writeback, R137 and R138, is the spec's decision D2, that a register byte is not masked D3; log entry 7.) -/
def Obligations.LogicInstructions : Prop :=
  (∀ b1 : Byte,
    decodesTo [0x20#8, b1] (.and (regOf (b1.toNat / 16)) (regOf (b1.toNat % 16))) ∧
    decodesTo [0x21#8, b1] (.or (regOf (b1.toNat / 16)) (regOf (b1.toNat % 16))) ∧
    decodesTo [0x22#8, b1] (.xor (regOf (b1.toNat / 16)) (regOf (b1.toNat % 16))) ∧
    decodesTo [0x23#8, b1] (.not (regOf b1.toNat))) ∧
  ∀ (rd rs : Reg) (s : State),
    let x := (readReg s rd).toNat
    let y := (readReg s rs).toNat
    exec (.and rd rs) s = .next (completed s
      { writeReg s rd (BitVec.ofNat 16 (x &&& y)) with flags := resultFlags s.flags (x &&& y) false }) ∧
    exec (.or rd rs) s = .next (completed s
      { writeReg s rd (BitVec.ofNat 16 (x ||| y)) with flags := resultFlags s.flags (x ||| y) false }) ∧
    exec (.xor rd rs) s = .next (completed s
      { writeReg s rd (BitVec.ofNat 16 (x ^^^ y)) with flags := resultFlags s.flags (x ^^^ y) false }) ∧
    exec (.not rd) s = .next (completed s
      { writeReg s rd (BitVec.ofNat 16 (0xFFFF - x)) with flags := resultFlags s.flags (0xFFFF - x) false })

/-- R205, R206: SHL and SHR for every count 0..255, C the last bit moved out. (Counts above 16 and the logical right shift
are the spec's decision D13, that a write to `PC` is lost D2.) -/
def Obligations.ShiftInstructions : Prop :=
  ∀ (r : Reg) (k : Byte) (s : State),
    let x := (readReg s r).toNat
    let left := x * 2 ^ k.toNat % 0x10000
    let right := x / 2 ^ k.toNat
    exec (.shl r k) s = .next (completed s
      { writeReg s r (BitVec.ofNat 16 left) with
        flags := resultFlags s.flags left
          (if k.toNat = 0 then false else if k.toNat ≤ 16 then x.testBit (16 - k.toNat) else false) }) ∧
    exec (.shr r k) s = .next (completed s
      { writeReg s r (BitVec.ofNat 16 right) with
        flags := resultFlags s.flags right
          (if k.toNat = 0 then false else if k.toNat ≤ 16 then x.testBit (k.toNat - 1) else false) })

/-- R220, R221: the bytes of CMP and CMPI, and all they do: the flags of the subtraction, no register written. (That a
register byte is not masked is the spec's decision D3; log entry 7.) -/
def Obligations.CompareInstructions : Prop :=
  (∀ b1 b2 b3 : Byte,
    decodesTo [0x30#8, b1] (.cmp (regOf (b1.toNat / 16)) (regOf (b1.toNat % 16))) ∧
    decodesTo [0x31#8, b1, b2, b3] (.cmpi (regOf b1.toNat) (word16 b2 b3))) ∧
  ∀ (rd rs : Reg) (imm : Word) (s : State),
    exec (.cmp rd rs) s =
      .next (completed s { s with flags := subFlags s.flags (readReg s rd) (readReg s rs) }) ∧
    exec (.cmpi rd imm) s = .next (completed s { s with flags := subFlags s.flags (readReg s rd) imm })

/-- After a compare, Z is 1 exactly when the operands are equal and C exactly when the first is less, unsigned; so JZ after
CMP is taken exactly when they are equal, and JC exactly when the first is less. -/
def Obligations.CompareThenBranch : Prop :=
  ∀ (rd rs : Reg) (s t : State) (addr : Word), exec (.cmp rd rs) s = .next t →
    (t.flags.getLsbD 7 = true ↔ readReg s rd = readReg s rs) ∧
    (t.flags.getLsbD 6 = true ↔ (readReg s rd).toNat < (readReg s rs).toNat) ∧
    (∃ u, exec (.jz addr) t = .next u ∧ u.pc = if readReg s rd = readReg s rs then addr else t.cursor) ∧
    ∃ u, exec (.jc addr) t = .next u ∧
      u.pc = if (readReg s rd).toNat < (readReg s rs).toNat then addr else t.cursor

/-! ### Data movement and the stack -/

/-- R163, R166: LOAD r,imm and MOV write one register and nothing else, for every register operand. (That the flags stay is
the spec's decision D10, that a write to `PC` is lost its decision D2.) -/
def Obligations.LoadImmAndMov : Prop :=
  ∀ (rd rs : Reg) (imm : Word) (s : State),
    exec (.loadImm rd imm) s = .next (completed s (writeReg s rd imm)) ∧
    exec (.mov rd rs) s = .next (completed s (writeReg s rd (readReg s rs))) ∧
    (∀ n : Byte, 6 ≤ n.toNat →
      exec (.loadImm (Reg.ofByte n) imm) s = .next (completed s s) ∧
      exec (.mov (Reg.ofByte n) rs) s = .next (completed s s) ∧
      exec (.mov rd (Reg.ofByte n)) s = .next (completed s (writeReg s rd 0x0000#16))) ∧
    exec (.loadImm .pc imm) s = .next (completed s s)

/-- R164: LOAD r,[addr] at any address, ports included, when no byte of it waits on STDIN: the word found goes to the
register, one input byte is consumed if STDIN is one of the two, and nothing else changes. (Order and wrap are the spec's
decision D4, the flags D10, that a write to `PC` is lost D2.) -/
def Obligations.LoadMemInstruction : Prop :=
  ∀ (r : Reg) (addr : Word) (s : State), wordReady s addr = true →
    exec (.loadMem r addr) s = .next (completed s
      { writeReg s r (wordAt s addr) with input := inputAfterWord s addr })

/-- R165: STORE at any address, ports included: the two bytes, low first, and nothing else. (Order and wrap are the spec's
decision D4, the flags D10.) -/
def Obligations.StoreInstruction : Prop :=
  ∀ (addr : Word) (r : Reg) (s : State),
    ∃ t, exec (.store addr r) s = .next t ∧ WordStored s t addr (readReg s r) ∧ sameInside s t ∧
      t.sp = s.sp ∧ t.pc = s.cursor ∧ t.cycles = s.cycles + 1#64 ∧ t.lastStep = .executed

/-- R160, R167: PUSH stores the register's value from before SP moves at SP - 2, ports included, and moves SP there. (The
value before is the spec's decision D14, the flags D10.) -/
def Obligations.PushInstruction : Prop :=
  ∀ (r : Reg) (s : State),
    ∃ t, exec (.push r) s = .next t ∧ WordStored s t (s.sp - 2#16) (readReg s r) ∧ sameInside s t ∧
      t.sp = s.sp - 2#16 ∧ t.pc = s.cursor ∧ t.cycles = s.cycles + 1#64 ∧ t.lastStep = .executed

/-- R161, R168: POP reads the word at SP, ports included, moves SP by 2, then writes the register, `SP` itself included.
(The order is the spec's decision D14, the flags D10, that a write to `PC` is lost D2.) -/
def Obligations.PopInstruction : Prop :=
  ∀ (r : Reg) (s : State), wordReady s s.sp = true →
    exec (.pop r) s = .next (completed s
      { writeReg { s with sp := s.sp + 2#16 } r (wordAt s s.sp) with input := inputAfterWord s s.sp })

/-- 90_conflicts.md C5: after PUSH and then POP into A, B, C or D, away from the ports, that register holds the pushed value
and SP is back. -/
def Obligations.PushThenPop : Prop :=
  ∀ (r q : Reg) (s : State) (next : Word), (q = .a ∨ q = .b ∨ q = .c ∨ q = .d) →
    isPort (s.sp - 2#16) = false → isPort (s.sp - 1#16) = false →
    ∃ t u, exec (.push r) s = .next t ∧ exec (.pop q) { t with cursor := next } = .next u ∧
      readReg u q = readReg s r ∧ u.sp = s.sp ∧ u.pc = next ∧ u.flags = s.flags

/-! ### Control transfer -/

/-- R162, R233 to R237: NOP and the five jumps: where each goes, and that it changes nothing else. (That the flags stay is
the spec's decision D10.) -/
def Obligations.NopAndJumps : Prop :=
  ∀ (addr : Word) (s : State),
    let on : State := completed s s
    let taken : State := { s with cursor := addr, pc := addr, cycles := s.cycles + 1#64, lastStep := .executed }
    exec .nop s = .next on ∧
    exec (.jmp addr) s = .next taken ∧
    exec (.jz addr) s = .next (if s.flags &&& 0x80#8 ≠ 0#8 then taken else on) ∧
    exec (.jnz addr) s = .next (if s.flags &&& 0x80#8 ≠ 0#8 then on else taken) ∧
    exec (.jc addr) s = .next (if s.flags &&& 0x40#8 ≠ 0#8 then taken else on) ∧
    exec (.jnc addr) s = .next (if s.flags &&& 0x40#8 ≠ 0#8 then on else taken)

/-- R238: CALL pushes the address after itself (the cursor) at SP - 2, ports included, and goes to the target. (That the
flags stay is the spec's decision D10.) -/
def Obligations.CallInstruction : Prop :=
  ∀ (addr : Word) (s : State),
    ∃ t, exec (.call addr) s = .next t ∧ WordStored s t (s.sp - 2#16) s.cursor ∧ sameInside s t ∧
      t.sp = s.sp - 2#16 ∧ t.pc = addr ∧ t.cycles = s.cycles + 1#64 ∧ t.lastStep = .executed

/-- R239: RET goes to the word at SP, ports included, and moves SP by 2. (That the flags stay is the spec's decision D10.) -/
def Obligations.RetInstruction : Prop :=
  ∀ s : State, wordReady s s.sp = true →
    exec .ret s = .next { s with
      sp := s.sp + 2#16, input := inputAfterWord s s.sp, cursor := wordAt s s.sp, pc := wordAt s s.sp,
      cycles := s.cycles + 1#64, lastStep := .executed }

/-- R239: after CALL and an immediate RET, away from the ports, `PC` is the address after the CALL and SP is back. -/
def Obligations.CallThenRet : Prop :=
  ∀ (addr next : Word) (s : State), isPort (s.sp - 2#16) = false → isPort (s.sp - 1#16) = false →
    ∃ t u, exec (.call addr) s = .next t ∧ exec .ret { t with cursor := next } = .next u ∧
      u.pc = s.cursor ∧ u.sp = s.sp ∧ u.flags = s.flags

/-! ### Input, output, halt, wait -/

/-- R250: IN from any address, ports included, when it does not wait on STDIN: the byte found, its upper byte cleared, goes
to the register. (A port operand that is a RAM address is the spec's decision D23, the flags D10, that a write to `PC` is
lost D2.) -/
def Obligations.InInstruction : Prop :=
  ∀ (r : Reg) (port : Word) (s : State), readReady s port = true →
    exec (.inPort r port) s = .next (completed s
      { writeReg s r (BitVec.ofNat 16 (byteAt s port).toNat) with input := inputAfterByte s port })

/-- R251: OUT writes the low byte of the register to each of the four ports, or to the one byte of memory at any other
address. (The RAM address is the spec's decision D23, the zero write to the timer D7, the STDIN write D6, the upper byte of
the timer value D8, the flags D10.) -/
def Obligations.OutInstruction : Prop :=
  ∀ (port : Word) (r : Reg) (s : State),
    let v := (readReg s r).toNat % 0x100
    exec (.outPort 0xFF00#16 r) s = .next (completed s { s with output := s.output ++ [BitVec.ofNat 8 v] }) ∧
    exec (.outPort 0xFF01#16 r) s = .next (completed s s) ∧
    (v ≠ 0 → exec (.outPort 0xFF02#16 r) s =
      .next (completed s { s with timerEnabled := true, timerValue := 0x0000#16 })) ∧
    (v = 0 → exec (.outPort 0xFF02#16 r) s = .next (completed s { s with timerEnabled := false })) ∧
    exec (.outPort 0xFF03#16 r) s = .next (completed s { s with timerValue := BitVec.ofNat 16 v }) ∧
    (isPort port = false →
      ∃ t, exec (.outPort port r) s = .next t ∧ t.mem.read port.toNat = BitVec.ofNat 8 v ∧
        (∀ n, n ≠ port.toNat → t.mem.read n = s.mem.read n) ∧ { t with mem := s.mem } = completed s s)

/-- R252, R135: HLT halts the core without the writeback: `PC` stays, `cycles` does not count it. (No writeback is the spec's
decision D16.) -/
def Obligations.HltInstruction : Prop :=
  ∀ s : State, exec .hlt s = .next { s with halted := true, running := false, lastStep := .executed }

/-- R312: the four instructions that may read STDIN wait when it has no answer, and have had no effect then. (That a wait is
a next state with no effect is the model's choice, log entry 5.) -/
def Obligations.ReadsThatWait : Prop :=
  ∀ (r : Reg) (addr : Word) (s : State),
    (wordReady s addr = false → exec (.loadMem r addr) s = .next { s with lastStep := .waiting }) ∧
    (wordReady s s.sp = false → exec (.pop r) s = .next { s with lastStep := .waiting }) ∧
    (wordReady s s.sp = false → exec .ret s = .next { s with lastStep := .waiting }) ∧
    (readReady s addr = false → exec (.inPort r addr) s = .next { s with lastStep := .waiting })

/-! ### The step -/

/-- R131 to R134, R55, R77: a step of a core that is not halted executes the instruction that its fetched bytes decode to,
with the cursor moved past it and the timer ticked. The opcode is the byte found at `PC` before the tick and the operands are
those found after it, from memory or through the ports, each port read taking effect (so a STDIN byte, or a timer value's low
byte, can be an opcode: R252). A step whose opcode or operand byte is at STDIN with no answer waits. The last clause says the
same of an instruction that stands in memory, no byte of it at a port, by the bytes of memory alone.
(The fetch through the ports is the spec's decision D5; that a wait, in the fetch or in the execution, is a next state at the
start of the step is the model's choice, log entry 5.) -/
def Obligations.StepRunsDecoded : Prop :=
  ∀ s : State, s.halted = false →
    let s0 : State := { s with cursor := s.pc + 1#16, input := inputAfterByte s s.pc, timerValue := ticked s }
    (readReady s s.pc = false → step s = .next { s with lastStep := .waiting }) ∧
    (∀ (i : Instr) (rest : List Byte), readReady s s.pc = true →
      decode (byteAt s s.pc :: bytesFound s0 (s.pc + 1#16) 3) = .ok (i, rest) →
      let n := 3 - rest.length
      let s1 : State := { s0 with
        cursor := s.pc + BitVec.ofNat 16 (1 + n), input := inputAfterBytes s0 (s.pc + 1#16) n }
      i.wellFormed = true ∧ (encode i).length = 1 + n ∧
      (bytesReady s0 (s.pc + 1#16) n = false → step s = .next { s with lastStep := .waiting }) ∧
      (bytesReady s0 (s.pc + 1#16) n = true → step s = settle s (exec i s1) ∧
        ∀ t, exec i s1 = .next t →
          (t.lastStep ≠ .waiting → step s = .next t) ∧
          (t.lastStep = .waiting → step s = .next { s with lastStep := .waiting }))) ∧
    ∀ (i : Instr) (rest : List Byte), decode (bytesAt s s.pc 4) = .ok (i, rest) →
      noPortIn s.pc (4 - rest.length) = true →
      let s1 : State := { s with cursor := s.pc + BitVec.ofNat 16 (4 - rest.length), timerValue := ticked s }
      i.wellFormed = true ∧ step s = settle s (exec i s1) ∧
      ∀ t, exec i s1 = .next t →
        (t.lastStep ≠ .waiting → step s = .next t) ∧ (t.lastStep = .waiting → step s = .next { s with lastStep := .waiting })

/-- R140: a step on a halted core does nothing but answer AlreadyHalted, and again. -/
def Obligations.HaltedStepDoesNothing : Prop :=
  ∀ s : State, s.halted = true →
    step s = .next { s with lastStep := .alreadyHalted } ∧
    step { s with lastStep := .alreadyHalted } = .next { s with lastStep := .alreadyHalted }

/-- R133, R134: whatever is fetched and from wherever, the fetch of a step ticks the timer exactly once, moves the cursor
past the bytes of the instruction, consumes at most one input byte, and changes nothing else; an illegal opcode too. -/
def Obligations.FetchTicksOnce : Prop :=
  ∀ s : State,
    (∀ i s1, fetch s = .fetched i s1 → i.wellFormed = true ∧
      (∃ n, n ≤ 1 ∧ s1 = { s with
        cursor := s.pc + BitVec.ofNat 16 (encode i).length, timerValue := ticked s, input := s.input.drop n })) ∧
    (∀ s1, fetch s = .unknown s1 →
      ∃ n, n ≤ 1 ∧ s1 = { s with cursor := s.pc + 1#16, timerValue := ticked s, input := s.input.drop n })

/-- Every step of every state answers a next state, and says how it ended: nothing stops the machine. -/
def Obligations.StepAnswersNext : Prop :=
  ∀ s : State, ∃ t, step s = .next t ∧ t.lastStep ≠ .notStepped

/-- The invariant holds after reset. -/
def Obligations.ResetHasInv : Prop := Inv State.reset

/-- HEADLINE. Every step keeps the invariant: the memory in canonical form, the reserved flag bits 0, one of the three run
states, and a core that ended in a runtime error halted at the offending opcode. -/
def Obligations.StepKeepsInv : Prop :=
  ∀ s t : State, Inv s → step s = .next t → Inv t

/-- R26: no step changes bits 3..0 of `F`, whatever they are. -/
def Obligations.StepKeepsReservedFlags : Prop :=
  ∀ s t : State, step s = .next t → t.flags &&& 0x0F#8 = s.flags &&& 0x0F#8

/-- R73: no step writes the four cells under the ports, and none reads them: two states that differ in those cells alone
answer states that differ in those cells alone. (The cells' existence is the spec's decision D20.) -/
def Obligations.PortCellsUntouched : Prop :=
  (∀ (s t : State) (n : Nat), step s = .next t → 0xFF00 ≤ n → n ≤ 0xFF03 → t.mem.read n = s.mem.read n) ∧
  ∀ (s t : State) (n : Nat) (v : Byte), 0xFF00 ≤ n → n ≤ 0xFF03 → step s = .next t →
    ∃ t', step { s with mem := s.mem.write n v } = .next t' ∧ { t' with mem := t.mem } = t ∧
      (∀ k, k ≠ n → t'.mem.read k = t.mem.read k) ∧ t'.mem.read n = v

/-- R31, R135, R136, R140: a step counts one instruction exactly when it executed one to its writeback; a HLT, a runtime
error, a halted core and a wait count nothing. (HLT and errors are the spec's decisions D16 and D15.) -/
def Obligations.CyclesCountCompleted : Prop :=
  ∀ s t : State, step s = .next t →
    t.cycles = if t.lastStep = .executed ∧ t.halted = false then s.cycles + 1#64 else s.cycles

/-- R64, R80, R81: a step only adds to the end of the output, at most one byte, and only takes from the front of the input,
at most two bytes; it never signals the end of input. -/
def Obligations.StreamsAreStreams : Prop :=
  ∀ s t : State, step s = .next t →
    (∃ sent : List Byte, sent.length ≤ 1 ∧ t.output = s.output ++ sent) ∧
    (∃ n, n ≤ 2 ∧ t.input = s.input.drop n) ∧ t.inputEnded = s.inputEnded

/-- R34, R29, R30: `running` is never set by a step, and a step halts a core only by HLT or a runtime error. -/
def Obligations.WhatHaltsTheCore : Prop :=
  (∀ s t : State, step s = .next t → (t.running = true → s.running = true) ∧ (s.halted = true → t.halted = true)) ∧
  ∀ (i : Instr) (s t : State), exec i s = .next t → s.halted = false →
    (t.halted = true ↔ i = .hlt ∨ ∃ rd rs, i = .div rd rs ∧ readReg s rs = 0#16) ∧
    (t.halted = false → t.running = s.running) ∧ (t.halted = true → t.running = false)

/-- R142, R312: a step that waits changes nothing but its answer, happens only while the host has signalled no end and has at
most one byte supplied, and once the host supplies bytes goes on as if they had been there from the start. (A wait as a step
that is taken again is the model's choice, log entry 5.) -/
def Obligations.WaitingStepResumes : Prop :=
  (∀ s t : State, step s = .next t → t.lastStep = .waiting →
    t = { s with lastStep := .waiting } ∧ s.inputEnded = false ∧ s.input.length ≤ 1 ∧
    (∀ bytes, step (supplyInput t bytes) = step (supplyInput s bytes)) ∧ step (endInput t) = step (endInput s)) ∧
  ∀ s : State, (2 ≤ s.input.length ∨ s.inputEnded = true) → ∃ t, step s = .next t ∧ t.lastStep ≠ .waiting

/-- Bytes placed by the host are fetched next: `withFetchWord` makes the very next step execute the instruction of the word,
at `PC` or at the program base. (The model's choice, log entry 6.) -/
def Obligations.PlacedWordRuns : Prop :=
  ∀ (s : State) (nbits w : Nat) (i : Instr), decodeTableWord nbits w = some i →
    let s0 := s.withFetchWord nbits w
    (s0.pc = s.pc ∨ s0.pc = 0x0100#16) ∧ s0.halted = false ∧
    step s0 = settle s0 (exec i { s0 with
      cursor := s0.pc + BitVec.ofNat 16 (encode i).length, timerValue := ticked s })

/-! ### Frames -/

/-- R137, R138: an instruction that executes to its writeback and is no control transfer goes on at the cursor whatever it
wrote to index 5, and counts one. (That a write to `PC` is lost is the spec's decision D2.) -/
def Obligations.OnlyTransfersRedirect : Prop :=
  ∀ (i : Instr) (s t : State), exec i s = .next t → i ≠ .hlt → t.lastStep = .executed → transfers i = false →
    t.pc = s.cursor ∧ t.cycles = s.cycles + 1#64

/-- An instruction leaves every register but its destinations, `SP` where it uses the stack, and `PC`. -/
def Obligations.RegisterFrame : Prop :=
  ∀ (i : Instr) (s t : State) (q : Reg), exec i s = .next t → writesReg i q = false → q ≠ .pc →
    readReg t q = readReg s q

/-- R27, R61: an instruction that does not store leaves every byte of memory, the output and the timer; one that the table of
R27 does not list as writing flags leaves `F`. (The unlisted instructions are the spec's decision D10.) -/
def Obligations.MemoryAndFlagsFrame : Prop :=
  ∀ (i : Instr) (s t : State), exec i s = .next t →
    (storesBytes i = false →
      (∀ n, t.mem.read n = s.mem.read n) ∧ t.output = s.output ∧ t.timerEnabled = s.timerEnabled ∧
      t.timerValue = s.timerValue) ∧
    (writesFlags i = false → t.flags = s.flags)

/-! ### The host's actions -/

/-- R302: `load_program` succeeds exactly when the image fits, then copies it byte for byte, ports' cells included, sets `PC`
and changes nothing else. (The raw copy and the unchanged state on failure are the spec's decision D21.) -/
def Obligations.LoadProgramCopies : Prop :=
  ∀ (bytes : List Byte) (start : Word) (s : State),
    (0x10000 < start.toNat + bytes.length → loadProgram bytes start s = .error .programOverflow) ∧
    (start.toNat + bytes.length ≤ 0x10000 →
      ∃ t, loadProgram bytes start s = .ok t ∧ t.pc = start ∧
        (∀ k (h : k < bytes.length), t.mem.read (start.toNat + k) = bytes[k]) ∧
        (∀ n, (n < start.toNat ∨ start.toNat + bytes.length ≤ n) → t.mem.read n = s.mem.read n) ∧
        { t with mem := s.mem, pc := s.pc } = s)

/-- R304, R252, R277: `run` on a core halted at a HLT in memory halts there again at once, and on a core stopped by a divide
by zero in memory raises the same error at the same address. (`run` in these states is the spec's decision D25.) -/
def Obligations.RunAgainStopsAgain : Prop :=
  ∀ (s : State) (fuel : Nat), s.halted = true →
    (s.mem.read s.pc.toNat = 0xFF#8 → isPort s.pc = false →
      ∃ t, run (fuel + 1) s = .ended t ∧ t.lastStep = .executed ∧ t.halted = true ∧ t.pc = s.pc ∧ t.cycles = s.cycles ∧
        t.output = s.output) ∧
    (∀ rd rs rest, decode (bytesAt s s.pc 2) = .ok (.div rd rs, rest) → noPortIn s.pc 2 = true → readReg s rs = 0#16 →
      ∃ t, run (fuel + 1) s = .ended t ∧ t.lastStep = .fatal .divideByZero s.pc ∧ t.halted = true ∧ t.pc = s.pc ∧
        t.cycles = s.cycles)
end

