-- ==== Sys2Proof/Laws/Memory.lean ====
section
/-! SUPPORT. The memory array: what a read finds after a write, and that every operation keeps the canonical form. -/

namespace Sys2Proof.Machine

theorem Memory.read_cons (cell : Host.Cell) (m : Memory) (n : Nat) :
    Memory.read (cell :: m) n = if cell.1 = n then cell.2 else m.read n := rfl

theorem Memory.read_erase (m : Memory) (n k : Nat) :
    (m.erase n).read k = if k = n then unwrittenByte else m.read k := by
  induction m with
  | nil => simp [Memory.erase, Memory.read]
  | cons cell m ih =>
    simp only [Memory.erase, Memory.read]
    split <;> rename_i h
    · rw [ih]; split <;> rename_i hk
      · rfl
      · rw [if_neg (by omega)]
    · rw [Memory.read_cons, ih]
      split
      · rename_i hc; rw [if_neg (by omega)]
      · rfl

theorem Memory.read_place (m : Memory) (n : Nat) (v : Byte) (k : Nat) (hm : ∀ cell ∈ m, cell.1 ≠ n) :
    (m.place n v).read k = if k = n then v else m.read k := by
  induction m with
  | nil => simp only [Memory.place, Memory.read]; simp [eq_comm]
  | cons cell m ih =>
    have hc : cell.1 ≠ n := hm cell (by simp)
    simp only [Memory.place]
    split
    · simp only [Memory.read_cons]; simp [eq_comm]
    · rw [Memory.read_cons, ih (fun c h => hm c (by simp [h])), Memory.read_cons]
      split
      · rename_i h1; rw [if_neg (by omega)]
      · rfl

theorem Memory.mem_erase_ne (m : Memory) (n : Nat) : ∀ cell ∈ m.erase n, cell.1 ≠ n := by
  induction m with
  | nil => simp [Memory.erase]
  | cons cell m ih =>
    simp only [Memory.erase]
    split
    · exact ih
    · simpa [*] using ih

/-- A read after a write. -/
theorem Memory.read_write (m : Memory) (n : Nat) (v : Byte) (k : Nat) :
    (m.write n v).read k = if k = n then v else m.read k := by
  unfold Memory.write
  split
  · rename_i hv; rw [Memory.read_erase, hv]
  · rw [Memory.read_place _ _ _ _ (Memory.mem_erase_ne m n), Memory.read_erase]
    split <;> rfl

@[simp] theorem Memory.read_write_same (m : Memory) (n : Nat) (v : Byte) : (m.write n v).read n = v := by
  simp [Memory.read_write]

theorem Memory.read_write_other (m : Memory) {n k : Nat} (v : Byte) (h : k ≠ n) : (m.write n v).read k = m.read k := by
  simp [Memory.read_write, h]

/-- The canonical form of a list, cell by cell. -/
theorem Memory.wf_cons (cell : Host.Cell) (m : Memory) :
    Memory.wf (cell :: m) = true ↔
      cell.1 < 0x10000 ∧ cell.2 ≠ unwrittenByte ∧ (∀ next ∈ m, cell.1 < next.1) ∧ m.wf = true := by
  simp [Memory.wf, and_assoc]

theorem Memory.mem_erase (m : Memory) (n : Nat) : ∀ cell ∈ m.erase n, cell ∈ m := by
  induction m with
  | nil => simp [Memory.erase]
  | cons cell m ih =>
    simp only [Memory.erase]
    split
    · intro c hc; exact List.mem_cons_of_mem _ (ih c hc)
    · intro c hc
      rcases List.mem_cons.1 hc with rfl | hc
      · simp
      · exact List.mem_cons_of_mem _ (ih c hc)

theorem Memory.mem_place (m : Memory) (n : Nat) (v : Byte) : ∀ cell ∈ m.place n v, cell = (n, v) ∨ cell ∈ m := by
  induction m with
  | nil => simp [Memory.place]
  | cons cell m ih =>
    simp only [Memory.place]
    split
    · intro c hc
      rcases List.mem_cons.1 hc with rfl | hc
      · exact Or.inl rfl
      · exact Or.inr hc
    · intro c hc
      rcases List.mem_cons.1 hc with rfl | hc
      · exact Or.inr (by simp)
      · exact (ih c hc).imp id (List.mem_cons_of_mem _)

theorem Memory.wf_erase (m : Memory) (n : Nat) (h : m.wf = true) : (m.erase n).wf = true := by
  induction m with
  | nil => rfl
  | cons cell m ih =>
    obtain ⟨h1, h2, h3, h4⟩ := (Memory.wf_cons _ _).1 h
    simp only [Memory.erase]
    split
    · exact ih h4
    · exact (Memory.wf_cons _ _).2 ⟨h1, h2, fun c hc => h3 c (Memory.mem_erase m n c hc), ih h4⟩

theorem Memory.wf_place (m : Memory) (n : Nat) (v : Byte) (h : m.wf = true) (hn : n < 0x10000) (hv : v ≠ unwrittenByte)
    (hm : ∀ cell ∈ m, cell.1 ≠ n) : (m.place n v).wf = true := by
  induction m with
  | nil => exact (Memory.wf_cons _ _).2 ⟨hn, hv, by simp, rfl⟩
  | cons cell m ih =>
    obtain ⟨h1, h2, h3, h4⟩ := (Memory.wf_cons _ _).1 h
    have hc : cell.1 ≠ n := hm cell (by simp)
    simp only [Memory.place]
    split
    · rename_i hlt
      refine (Memory.wf_cons _ _).2 ⟨hn, hv, ?_, h⟩
      intro c hc'
      rcases List.mem_cons.1 hc' with rfl | hc'
      · exact hlt
      · exact Nat.lt_trans hlt (h3 c hc')
    · rename_i hlt
      refine (Memory.wf_cons _ _).2 ⟨h1, h2, ?_, ih h4 (fun c hc' => hm c (List.mem_cons_of_mem _ hc'))⟩
      intro c hc'
      rcases Memory.mem_place m n v c hc' with rfl | hc'
      · show cell.1 < n; omega
      · exact h3 c hc'

/-- A write keeps the canonical form. -/
theorem Memory.wf_write (m : Memory) (n : Nat) (v : Byte) (h : m.wf = true) (hn : n < 0x10000) :
    (m.write n v).wf = true := by
  unfold Memory.write
  split
  · exact Memory.wf_erase m n h
  · rename_i hv
    exact Memory.wf_place _ n v (Memory.wf_erase m n h) hn hv (Memory.mem_erase_ne m n)

/-- A raw copy keeps the canonical form. -/
theorem Memory.wf_copyIn (bytes : List Byte) : ∀ (m : Memory) (start : Word), m.wf = true → (m.copyIn start bytes).wf = true := by
  induction bytes with
  | nil => intro m start h; exact h
  | cons v rest ih => intro m start h; exact ih _ _ (Memory.wf_write m _ v h start.isLt)

/-- What a raw copy that does not wrap leaves at every address. -/
theorem Memory.read_copyIn (bytes : List Byte) : ∀ (m : Memory) (start : Word), start.toNat + bytes.length ≤ 0x10000 →
    ∀ n, (m.copyIn start bytes).read n =
      if h : start.toNat ≤ n ∧ n < start.toNat + bytes.length then bytes[n - start.toNat]'(by omega) else m.read n := by
  induction bytes with
  | nil => intro m start h n; simp [Memory.copyIn]
  | cons v rest ih =>
    intro m start h n
    simp only [List.length_cons] at h
    rw [Memory.copyIn]
    by_cases hr : rest = []
    · subst hr
      simp only [Memory.copyIn, Memory.read_write]
      by_cases hn : n = start.toNat
      · simp [hn]
      · rw [if_neg hn, dif_neg]; simp; omega
    · have hlen : 0 < rest.length := List.length_pos_iff.2 hr
      have hs : (start + 1#16).toNat = start.toNat + 1 := by simp; omega
      rw [ih _ _ (by rw [hs]; omega)]
      by_cases hn : n = start.toNat
      · subst hn
        rw [dif_neg (by rw [hs]; omega), dif_pos (by simp)]
        simp
      · by_cases h2 : (start + 1#16).toNat ≤ n ∧ n < (start + 1#16).toNat + rest.length
        · rw [dif_pos h2, dif_pos (by rw [hs] at h2; simp; omega)]
          have : n - start.toNat = (n - (start + 1#16).toNat) + 1 := by omega
          simp only [this, List.getElem_cons_succ]
        · rw [dif_neg h2, dif_neg (by rw [hs] at h2; simp; omega), Memory.read_write_other _ _ hn]

/-- Reset memory is in canonical form. -/
theorem Memory.wf_reset : State.reset.mem.wf = true := rfl

end Sys2Proof.Machine
end

