-- ==== Sys2Proof/Laws/State.lean ====
section
/-! SUPPORT. One lemma per field per named update of the state, so that no proof unfolds a record update. -/

namespace Sys2Proof.Machine.State

variable (s : State)

/-! ### setSp -/

@[simp] theorem setSp_a (v : Word) : (setSp s v).a = s.a := rfl
@[simp] theorem setSp_b (v : Word) : (setSp s v).b = s.b := rfl
@[simp] theorem setSp_c (v : Word) : (setSp s v).c = s.c := rfl
@[simp] theorem setSp_d (v : Word) : (setSp s v).d = s.d := rfl
@[simp] theorem setSp_sp (v : Word) : (setSp s v).sp = v := rfl
@[simp] theorem setSp_pc (v : Word) : (setSp s v).pc = s.pc := rfl
@[simp] theorem setSp_flags (v : Word) : (setSp s v).flags = s.flags := rfl
@[simp] theorem setSp_mem (v : Word) : (setSp s v).mem = s.mem := rfl
@[simp] theorem setSp_halted (v : Word) : (setSp s v).halted = s.halted := rfl
@[simp] theorem setSp_running (v : Word) : (setSp s v).running = s.running := rfl
@[simp] theorem setSp_cycles (v : Word) : (setSp s v).cycles = s.cycles := rfl
@[simp] theorem setSp_timerEnabled (v : Word) : (setSp s v).timerEnabled = s.timerEnabled := rfl
@[simp] theorem setSp_timerValue (v : Word) : (setSp s v).timerValue = s.timerValue := rfl
@[simp] theorem setSp_cursor (v : Word) : (setSp s v).cursor = s.cursor := rfl
@[simp] theorem setSp_input (v : Word) : (setSp s v).input = s.input := rfl
@[simp] theorem setSp_inputEnded (v : Word) : (setSp s v).inputEnded = s.inputEnded := rfl
@[simp] theorem setSp_output (v : Word) : (setSp s v).output = s.output := rfl
@[simp] theorem setSp_lastStep (v : Word) : (setSp s v).lastStep = s.lastStep := rfl

/-! ### jumpTo -/

@[simp] theorem jumpTo_a (v : Word) : (jumpTo s v).a = s.a := rfl
@[simp] theorem jumpTo_b (v : Word) : (jumpTo s v).b = s.b := rfl
@[simp] theorem jumpTo_c (v : Word) : (jumpTo s v).c = s.c := rfl
@[simp] theorem jumpTo_d (v : Word) : (jumpTo s v).d = s.d := rfl
@[simp] theorem jumpTo_sp (v : Word) : (jumpTo s v).sp = s.sp := rfl
@[simp] theorem jumpTo_pc (v : Word) : (jumpTo s v).pc = s.pc := rfl
@[simp] theorem jumpTo_flags (v : Word) : (jumpTo s v).flags = s.flags := rfl
@[simp] theorem jumpTo_mem (v : Word) : (jumpTo s v).mem = s.mem := rfl
@[simp] theorem jumpTo_halted (v : Word) : (jumpTo s v).halted = s.halted := rfl
@[simp] theorem jumpTo_running (v : Word) : (jumpTo s v).running = s.running := rfl
@[simp] theorem jumpTo_cycles (v : Word) : (jumpTo s v).cycles = s.cycles := rfl
@[simp] theorem jumpTo_timerEnabled (v : Word) : (jumpTo s v).timerEnabled = s.timerEnabled := rfl
@[simp] theorem jumpTo_timerValue (v : Word) : (jumpTo s v).timerValue = s.timerValue := rfl
@[simp] theorem jumpTo_cursor (v : Word) : (jumpTo s v).cursor = v := rfl
@[simp] theorem jumpTo_input (v : Word) : (jumpTo s v).input = s.input := rfl
@[simp] theorem jumpTo_inputEnded (v : Word) : (jumpTo s v).inputEnded = s.inputEnded := rfl
@[simp] theorem jumpTo_output (v : Word) : (jumpTo s v).output = s.output := rfl
@[simp] theorem jumpTo_lastStep (v : Word) : (jumpTo s v).lastStep = s.lastStep := rfl

/-! ### retire -/

@[simp] theorem retire_a : (retire s).a = s.a := rfl
@[simp] theorem retire_b : (retire s).b = s.b := rfl
@[simp] theorem retire_c : (retire s).c = s.c := rfl
@[simp] theorem retire_d : (retire s).d = s.d := rfl
@[simp] theorem retire_sp : (retire s).sp = s.sp := rfl
@[simp] theorem retire_pc : (retire s).pc = s.cursor := rfl
@[simp] theorem retire_flags : (retire s).flags = s.flags := rfl
@[simp] theorem retire_mem : (retire s).mem = s.mem := rfl
@[simp] theorem retire_halted : (retire s).halted = s.halted := rfl
@[simp] theorem retire_running : (retire s).running = s.running := rfl
@[simp] theorem retire_cycles : (retire s).cycles = s.cycles + 1#64 := rfl
@[simp] theorem retire_timerEnabled : (retire s).timerEnabled = s.timerEnabled := rfl
@[simp] theorem retire_timerValue : (retire s).timerValue = s.timerValue := rfl
@[simp] theorem retire_cursor : (retire s).cursor = s.cursor := rfl
@[simp] theorem retire_input : (retire s).input = s.input := rfl
@[simp] theorem retire_inputEnded : (retire s).inputEnded = s.inputEnded := rfl
@[simp] theorem retire_output : (retire s).output = s.output := rfl
@[simp] theorem retire_lastStep : (retire s).lastStep = .executed := rfl

/-! ### halt -/

@[simp] theorem halt_a : (halt s).a = s.a := rfl
@[simp] theorem halt_b : (halt s).b = s.b := rfl
@[simp] theorem halt_c : (halt s).c = s.c := rfl
@[simp] theorem halt_d : (halt s).d = s.d := rfl
@[simp] theorem halt_sp : (halt s).sp = s.sp := rfl
@[simp] theorem halt_pc : (halt s).pc = s.pc := rfl
@[simp] theorem halt_flags : (halt s).flags = s.flags := rfl
@[simp] theorem halt_mem : (halt s).mem = s.mem := rfl
@[simp] theorem halt_halted : (halt s).halted = true := rfl
@[simp] theorem halt_running : (halt s).running = false := rfl
@[simp] theorem halt_cycles : (halt s).cycles = s.cycles := rfl
@[simp] theorem halt_timerEnabled : (halt s).timerEnabled = s.timerEnabled := rfl
@[simp] theorem halt_timerValue : (halt s).timerValue = s.timerValue := rfl
@[simp] theorem halt_cursor : (halt s).cursor = s.cursor := rfl
@[simp] theorem halt_input : (halt s).input = s.input := rfl
@[simp] theorem halt_inputEnded : (halt s).inputEnded = s.inputEnded := rfl
@[simp] theorem halt_output : (halt s).output = s.output := rfl
@[simp] theorem halt_lastStep : (halt s).lastStep = .executed := rfl

/-! ### raiseFatal -/

@[simp] theorem raiseFatal_a (k : RuntimeError) : (raiseFatal k s).a = s.a := rfl
@[simp] theorem raiseFatal_b (k : RuntimeError) : (raiseFatal k s).b = s.b := rfl
@[simp] theorem raiseFatal_c (k : RuntimeError) : (raiseFatal k s).c = s.c := rfl
@[simp] theorem raiseFatal_d (k : RuntimeError) : (raiseFatal k s).d = s.d := rfl
@[simp] theorem raiseFatal_sp (k : RuntimeError) : (raiseFatal k s).sp = s.sp := rfl
@[simp] theorem raiseFatal_pc (k : RuntimeError) : (raiseFatal k s).pc = s.pc := rfl
@[simp] theorem raiseFatal_flags (k : RuntimeError) : (raiseFatal k s).flags = s.flags := rfl
@[simp] theorem raiseFatal_mem (k : RuntimeError) : (raiseFatal k s).mem = s.mem := rfl
@[simp] theorem raiseFatal_halted (k : RuntimeError) : (raiseFatal k s).halted = true := rfl
@[simp] theorem raiseFatal_running (k : RuntimeError) : (raiseFatal k s).running = false := rfl
@[simp] theorem raiseFatal_cycles (k : RuntimeError) : (raiseFatal k s).cycles = s.cycles := rfl
@[simp] theorem raiseFatal_timerEnabled (k : RuntimeError) : (raiseFatal k s).timerEnabled = s.timerEnabled := rfl
@[simp] theorem raiseFatal_timerValue (k : RuntimeError) : (raiseFatal k s).timerValue = s.timerValue := rfl
@[simp] theorem raiseFatal_cursor (k : RuntimeError) : (raiseFatal k s).cursor = s.cursor := rfl
@[simp] theorem raiseFatal_input (k : RuntimeError) : (raiseFatal k s).input = s.input := rfl
@[simp] theorem raiseFatal_inputEnded (k : RuntimeError) : (raiseFatal k s).inputEnded = s.inputEnded := rfl
@[simp] theorem raiseFatal_output (k : RuntimeError) : (raiseFatal k s).output = s.output := rfl
@[simp] theorem raiseFatal_lastStep (k : RuntimeError) : (raiseFatal k s).lastStep = .fatal k s.pc := rfl

/-! ### startRun -/

@[simp] theorem startRun_a : (startRun s).a = s.a := rfl
@[simp] theorem startRun_b : (startRun s).b = s.b := rfl
@[simp] theorem startRun_c : (startRun s).c = s.c := rfl
@[simp] theorem startRun_d : (startRun s).d = s.d := rfl
@[simp] theorem startRun_sp : (startRun s).sp = s.sp := rfl
@[simp] theorem startRun_pc : (startRun s).pc = s.pc := rfl
@[simp] theorem startRun_flags : (startRun s).flags = s.flags := rfl
@[simp] theorem startRun_mem : (startRun s).mem = s.mem := rfl
@[simp] theorem startRun_halted : (startRun s).halted = false := rfl
@[simp] theorem startRun_running : (startRun s).running = true := rfl
@[simp] theorem startRun_cycles : (startRun s).cycles = s.cycles := rfl
@[simp] theorem startRun_timerEnabled : (startRun s).timerEnabled = s.timerEnabled := rfl
@[simp] theorem startRun_timerValue : (startRun s).timerValue = s.timerValue := rfl
@[simp] theorem startRun_cursor : (startRun s).cursor = s.cursor := rfl
@[simp] theorem startRun_input : (startRun s).input = s.input := rfl
@[simp] theorem startRun_inputEnded : (startRun s).inputEnded = s.inputEnded := rfl
@[simp] theorem startRun_output : (startRun s).output = s.output := rfl
@[simp] theorem startRun_lastStep : (startRun s).lastStep = s.lastStep := rfl

/-! ### alreadyHalted -/

@[simp] theorem alreadyHalted_a : (alreadyHalted s).a = s.a := rfl
@[simp] theorem alreadyHalted_b : (alreadyHalted s).b = s.b := rfl
@[simp] theorem alreadyHalted_c : (alreadyHalted s).c = s.c := rfl
@[simp] theorem alreadyHalted_d : (alreadyHalted s).d = s.d := rfl
@[simp] theorem alreadyHalted_sp : (alreadyHalted s).sp = s.sp := rfl
@[simp] theorem alreadyHalted_pc : (alreadyHalted s).pc = s.pc := rfl
@[simp] theorem alreadyHalted_flags : (alreadyHalted s).flags = s.flags := rfl
@[simp] theorem alreadyHalted_mem : (alreadyHalted s).mem = s.mem := rfl
@[simp] theorem alreadyHalted_halted : (alreadyHalted s).halted = s.halted := rfl
@[simp] theorem alreadyHalted_running : (alreadyHalted s).running = s.running := rfl
@[simp] theorem alreadyHalted_cycles : (alreadyHalted s).cycles = s.cycles := rfl
@[simp] theorem alreadyHalted_timerEnabled : (alreadyHalted s).timerEnabled = s.timerEnabled := rfl
@[simp] theorem alreadyHalted_timerValue : (alreadyHalted s).timerValue = s.timerValue := rfl
@[simp] theorem alreadyHalted_cursor : (alreadyHalted s).cursor = s.cursor := rfl
@[simp] theorem alreadyHalted_input : (alreadyHalted s).input = s.input := rfl
@[simp] theorem alreadyHalted_inputEnded : (alreadyHalted s).inputEnded = s.inputEnded := rfl
@[simp] theorem alreadyHalted_output : (alreadyHalted s).output = s.output := rfl
@[simp] theorem alreadyHalted_lastStep : (alreadyHalted s).lastStep = .alreadyHalted := rfl

/-! ### awaitInput -/

@[simp] theorem awaitInput_a : (awaitInput s).a = s.a := rfl
@[simp] theorem awaitInput_b : (awaitInput s).b = s.b := rfl
@[simp] theorem awaitInput_c : (awaitInput s).c = s.c := rfl
@[simp] theorem awaitInput_d : (awaitInput s).d = s.d := rfl
@[simp] theorem awaitInput_sp : (awaitInput s).sp = s.sp := rfl
@[simp] theorem awaitInput_pc : (awaitInput s).pc = s.pc := rfl
@[simp] theorem awaitInput_flags : (awaitInput s).flags = s.flags := rfl
@[simp] theorem awaitInput_mem : (awaitInput s).mem = s.mem := rfl
@[simp] theorem awaitInput_halted : (awaitInput s).halted = s.halted := rfl
@[simp] theorem awaitInput_running : (awaitInput s).running = s.running := rfl
@[simp] theorem awaitInput_cycles : (awaitInput s).cycles = s.cycles := rfl
@[simp] theorem awaitInput_timerEnabled : (awaitInput s).timerEnabled = s.timerEnabled := rfl
@[simp] theorem awaitInput_timerValue : (awaitInput s).timerValue = s.timerValue := rfl
@[simp] theorem awaitInput_cursor : (awaitInput s).cursor = s.cursor := rfl
@[simp] theorem awaitInput_input : (awaitInput s).input = s.input := rfl
@[simp] theorem awaitInput_inputEnded : (awaitInput s).inputEnded = s.inputEnded := rfl
@[simp] theorem awaitInput_output : (awaitInput s).output = s.output := rfl
@[simp] theorem awaitInput_lastStep : (awaitInput s).lastStep = .waiting := rfl

/-! ### setFlags -/

@[simp] theorem setFlags_a (r : Alu) : (setFlags s r).a = s.a := rfl
@[simp] theorem setFlags_b (r : Alu) : (setFlags s r).b = s.b := rfl
@[simp] theorem setFlags_c (r : Alu) : (setFlags s r).c = s.c := rfl
@[simp] theorem setFlags_d (r : Alu) : (setFlags s r).d = s.d := rfl
@[simp] theorem setFlags_sp (r : Alu) : (setFlags s r).sp = s.sp := rfl
@[simp] theorem setFlags_pc (r : Alu) : (setFlags s r).pc = s.pc := rfl
@[simp] theorem setFlags_flags (r : Alu) : (setFlags s r).flags = packFlags s.flags r.z r.c r.n r.o := rfl
@[simp] theorem setFlags_mem (r : Alu) : (setFlags s r).mem = s.mem := rfl
@[simp] theorem setFlags_halted (r : Alu) : (setFlags s r).halted = s.halted := rfl
@[simp] theorem setFlags_running (r : Alu) : (setFlags s r).running = s.running := rfl
@[simp] theorem setFlags_cycles (r : Alu) : (setFlags s r).cycles = s.cycles := rfl
@[simp] theorem setFlags_timerEnabled (r : Alu) : (setFlags s r).timerEnabled = s.timerEnabled := rfl
@[simp] theorem setFlags_timerValue (r : Alu) : (setFlags s r).timerValue = s.timerValue := rfl
@[simp] theorem setFlags_cursor (r : Alu) : (setFlags s r).cursor = s.cursor := rfl
@[simp] theorem setFlags_input (r : Alu) : (setFlags s r).input = s.input := rfl
@[simp] theorem setFlags_inputEnded (r : Alu) : (setFlags s r).inputEnded = s.inputEnded := rfl
@[simp] theorem setFlags_output (r : Alu) : (setFlags s r).output = s.output := rfl
@[simp] theorem setFlags_lastStep (r : Alu) : (setFlags s r).lastStep = s.lastStep := rfl

/-! ### emit -/

@[simp] theorem emit_a (v : Byte) : (emit s v).a = s.a := rfl
@[simp] theorem emit_b (v : Byte) : (emit s v).b = s.b := rfl
@[simp] theorem emit_c (v : Byte) : (emit s v).c = s.c := rfl
@[simp] theorem emit_d (v : Byte) : (emit s v).d = s.d := rfl
@[simp] theorem emit_sp (v : Byte) : (emit s v).sp = s.sp := rfl
@[simp] theorem emit_pc (v : Byte) : (emit s v).pc = s.pc := rfl
@[simp] theorem emit_flags (v : Byte) : (emit s v).flags = s.flags := rfl
@[simp] theorem emit_mem (v : Byte) : (emit s v).mem = s.mem := rfl
@[simp] theorem emit_halted (v : Byte) : (emit s v).halted = s.halted := rfl
@[simp] theorem emit_running (v : Byte) : (emit s v).running = s.running := rfl
@[simp] theorem emit_cycles (v : Byte) : (emit s v).cycles = s.cycles := rfl
@[simp] theorem emit_timerEnabled (v : Byte) : (emit s v).timerEnabled = s.timerEnabled := rfl
@[simp] theorem emit_timerValue (v : Byte) : (emit s v).timerValue = s.timerValue := rfl
@[simp] theorem emit_cursor (v : Byte) : (emit s v).cursor = s.cursor := rfl
@[simp] theorem emit_input (v : Byte) : (emit s v).input = s.input := rfl
@[simp] theorem emit_inputEnded (v : Byte) : (emit s v).inputEnded = s.inputEnded := rfl
@[simp] theorem emit_output (v : Byte) : (emit s v).output = s.output ++ [v] := rfl
@[simp] theorem emit_lastStep (v : Byte) : (emit s v).lastStep = s.lastStep := rfl

/-! ### timerValueWrite -/

@[simp] theorem timerValueWrite_a (v : Byte) : (timerValueWrite s v).a = s.a := rfl
@[simp] theorem timerValueWrite_b (v : Byte) : (timerValueWrite s v).b = s.b := rfl
@[simp] theorem timerValueWrite_c (v : Byte) : (timerValueWrite s v).c = s.c := rfl
@[simp] theorem timerValueWrite_d (v : Byte) : (timerValueWrite s v).d = s.d := rfl
@[simp] theorem timerValueWrite_sp (v : Byte) : (timerValueWrite s v).sp = s.sp := rfl
@[simp] theorem timerValueWrite_pc (v : Byte) : (timerValueWrite s v).pc = s.pc := rfl
@[simp] theorem timerValueWrite_flags (v : Byte) : (timerValueWrite s v).flags = s.flags := rfl
@[simp] theorem timerValueWrite_mem (v : Byte) : (timerValueWrite s v).mem = s.mem := rfl
@[simp] theorem timerValueWrite_halted (v : Byte) : (timerValueWrite s v).halted = s.halted := rfl
@[simp] theorem timerValueWrite_running (v : Byte) : (timerValueWrite s v).running = s.running := rfl
@[simp] theorem timerValueWrite_cycles (v : Byte) : (timerValueWrite s v).cycles = s.cycles := rfl
@[simp] theorem timerValueWrite_timerEnabled (v : Byte) : (timerValueWrite s v).timerEnabled = s.timerEnabled := rfl
@[simp] theorem timerValueWrite_timerValue (v : Byte) : (timerValueWrite s v).timerValue = zextByte v := rfl
@[simp] theorem timerValueWrite_cursor (v : Byte) : (timerValueWrite s v).cursor = s.cursor := rfl
@[simp] theorem timerValueWrite_input (v : Byte) : (timerValueWrite s v).input = s.input := rfl
@[simp] theorem timerValueWrite_inputEnded (v : Byte) : (timerValueWrite s v).inputEnded = s.inputEnded := rfl
@[simp] theorem timerValueWrite_output (v : Byte) : (timerValueWrite s v).output = s.output := rfl
@[simp] theorem timerValueWrite_lastStep (v : Byte) : (timerValueWrite s v).lastStep = s.lastStep := rfl

/-! ### timerControlWrite -/

@[simp] theorem timerControlWrite_a (v : Byte) : (timerControlWrite s v).a = s.a := by unfold timerControlWrite; split <;> simp_all
@[simp] theorem timerControlWrite_b (v : Byte) : (timerControlWrite s v).b = s.b := by unfold timerControlWrite; split <;> simp_all
@[simp] theorem timerControlWrite_c (v : Byte) : (timerControlWrite s v).c = s.c := by unfold timerControlWrite; split <;> simp_all
@[simp] theorem timerControlWrite_d (v : Byte) : (timerControlWrite s v).d = s.d := by unfold timerControlWrite; split <;> simp_all
@[simp] theorem timerControlWrite_sp (v : Byte) : (timerControlWrite s v).sp = s.sp := by unfold timerControlWrite; split <;> simp_all
@[simp] theorem timerControlWrite_pc (v : Byte) : (timerControlWrite s v).pc = s.pc := by unfold timerControlWrite; split <;> simp_all
@[simp] theorem timerControlWrite_flags (v : Byte) : (timerControlWrite s v).flags = s.flags := by unfold timerControlWrite; split <;> simp_all
@[simp] theorem timerControlWrite_mem (v : Byte) : (timerControlWrite s v).mem = s.mem := by unfold timerControlWrite; split <;> simp_all
@[simp] theorem timerControlWrite_halted (v : Byte) : (timerControlWrite s v).halted = s.halted := by unfold timerControlWrite; split <;> simp_all
@[simp] theorem timerControlWrite_running (v : Byte) : (timerControlWrite s v).running = s.running := by unfold timerControlWrite; split <;> simp_all
@[simp] theorem timerControlWrite_cycles (v : Byte) : (timerControlWrite s v).cycles = s.cycles := by unfold timerControlWrite; split <;> simp_all
@[simp] theorem timerControlWrite_timerEnabled (v : Byte) : (timerControlWrite s v).timerEnabled = (v != 0x00#8) := by unfold timerControlWrite; split <;> simp_all
@[simp] theorem timerControlWrite_timerValue (v : Byte) : (timerControlWrite s v).timerValue = if v = 0x00#8 then s.timerValue else 0x0000#16 := by unfold timerControlWrite; split <;> simp_all
@[simp] theorem timerControlWrite_cursor (v : Byte) : (timerControlWrite s v).cursor = s.cursor := by unfold timerControlWrite; split <;> simp_all
@[simp] theorem timerControlWrite_input (v : Byte) : (timerControlWrite s v).input = s.input := by unfold timerControlWrite; split <;> simp_all
@[simp] theorem timerControlWrite_inputEnded (v : Byte) : (timerControlWrite s v).inputEnded = s.inputEnded := by unfold timerControlWrite; split <;> simp_all
@[simp] theorem timerControlWrite_output (v : Byte) : (timerControlWrite s v).output = s.output := by unfold timerControlWrite; split <;> simp_all
@[simp] theorem timerControlWrite_lastStep (v : Byte) : (timerControlWrite s v).lastStep = s.lastStep := by unfold timerControlWrite; split <;> simp_all

/-! ### beginStep -/

@[simp] theorem beginStep_a : (beginStep s).a = s.a := rfl
@[simp] theorem beginStep_b : (beginStep s).b = s.b := rfl
@[simp] theorem beginStep_c : (beginStep s).c = s.c := rfl
@[simp] theorem beginStep_d : (beginStep s).d = s.d := rfl
@[simp] theorem beginStep_sp : (beginStep s).sp = s.sp := rfl
@[simp] theorem beginStep_pc : (beginStep s).pc = s.pc := rfl
@[simp] theorem beginStep_flags : (beginStep s).flags = s.flags := rfl
@[simp] theorem beginStep_mem : (beginStep s).mem = s.mem := rfl
@[simp] theorem beginStep_halted : (beginStep s).halted = s.halted := rfl
@[simp] theorem beginStep_running : (beginStep s).running = s.running := rfl
@[simp] theorem beginStep_cycles : (beginStep s).cycles = s.cycles := rfl
@[simp] theorem beginStep_timerEnabled : (beginStep s).timerEnabled = s.timerEnabled := rfl
@[simp] theorem beginStep_timerValue : (beginStep s).timerValue = s.timerValue := rfl
@[simp] theorem beginStep_cursor : (beginStep s).cursor = s.pc := rfl
@[simp] theorem beginStep_input : (beginStep s).input = s.input := rfl
@[simp] theorem beginStep_inputEnded : (beginStep s).inputEnded = s.inputEnded := rfl
@[simp] theorem beginStep_output : (beginStep s).output = s.output := rfl
@[simp] theorem beginStep_lastStep : (beginStep s).lastStep = s.lastStep := rfl

/-! ### tick -/

@[simp] theorem tick_a : (tick s).a = s.a := by unfold tick; split <;> simp_all
@[simp] theorem tick_b : (tick s).b = s.b := by unfold tick; split <;> simp_all
@[simp] theorem tick_c : (tick s).c = s.c := by unfold tick; split <;> simp_all
@[simp] theorem tick_d : (tick s).d = s.d := by unfold tick; split <;> simp_all
@[simp] theorem tick_sp : (tick s).sp = s.sp := by unfold tick; split <;> simp_all
@[simp] theorem tick_pc : (tick s).pc = s.pc := by unfold tick; split <;> simp_all
@[simp] theorem tick_flags : (tick s).flags = s.flags := by unfold tick; split <;> simp_all
@[simp] theorem tick_mem : (tick s).mem = s.mem := by unfold tick; split <;> simp_all
@[simp] theorem tick_halted : (tick s).halted = s.halted := by unfold tick; split <;> simp_all
@[simp] theorem tick_running : (tick s).running = s.running := by unfold tick; split <;> simp_all
@[simp] theorem tick_cycles : (tick s).cycles = s.cycles := by unfold tick; split <;> simp_all
@[simp] theorem tick_timerEnabled : (tick s).timerEnabled = s.timerEnabled := by unfold tick; split <;> simp_all
@[simp] theorem tick_timerValue : (tick s).timerValue = if s.timerEnabled then s.timerValue + 1#16 else s.timerValue := by unfold tick; split <;> simp_all
@[simp] theorem tick_cursor : (tick s).cursor = s.cursor := by unfold tick; split <;> simp_all
@[simp] theorem tick_input : (tick s).input = s.input := by unfold tick; split <;> simp_all
@[simp] theorem tick_inputEnded : (tick s).inputEnded = s.inputEnded := by unfold tick; split <;> simp_all
@[simp] theorem tick_output : (tick s).output = s.output := by unfold tick; split <;> simp_all
@[simp] theorem tick_lastStep : (tick s).lastStep = s.lastStep := by unfold tick; split <;> simp_all

/-! ### writeReg -/

@[simp] theorem writeReg_flags (r : Reg) (v : Word) : (writeReg s r v).flags = s.flags := by cases r <;> rfl
@[simp] theorem writeReg_mem (r : Reg) (v : Word) : (writeReg s r v).mem = s.mem := by cases r <;> rfl
@[simp] theorem writeReg_halted (r : Reg) (v : Word) : (writeReg s r v).halted = s.halted := by cases r <;> rfl
@[simp] theorem writeReg_running (r : Reg) (v : Word) : (writeReg s r v).running = s.running := by cases r <;> rfl
@[simp] theorem writeReg_cycles (r : Reg) (v : Word) : (writeReg s r v).cycles = s.cycles := by cases r <;> rfl
@[simp] theorem writeReg_timerEnabled (r : Reg) (v : Word) : (writeReg s r v).timerEnabled = s.timerEnabled := by cases r <;> rfl
@[simp] theorem writeReg_timerValue (r : Reg) (v : Word) : (writeReg s r v).timerValue = s.timerValue := by cases r <;> rfl
@[simp] theorem writeReg_cursor (r : Reg) (v : Word) : (writeReg s r v).cursor = s.cursor := by cases r <;> rfl
@[simp] theorem writeReg_input (r : Reg) (v : Word) : (writeReg s r v).input = s.input := by cases r <;> rfl
@[simp] theorem writeReg_inputEnded (r : Reg) (v : Word) : (writeReg s r v).inputEnded = s.inputEnded := by cases r <;> rfl
@[simp] theorem writeReg_output (r : Reg) (v : Word) : (writeReg s r v).output = s.output := by cases r <;> rfl
@[simp] theorem writeReg_lastStep (r : Reg) (v : Word) : (writeReg s r v).lastStep = s.lastStep := by cases r <;> rfl

end Sys2Proof.Machine.State
end

