-- ==== Sys2Proof/Laws/Ops.lean ====
section
/-! SUPPORT. One lemma for each shared operation that says all it can do: the register operands, the flags byte, the memory
interface, the stack. -/

namespace Sys2Proof.Machine

/-! ### Register operands -/

@[simp] theorem readReg_writeReg_same (s : State) (r : Reg) (v : Word) (h : ∀ i, r ≠ .invalid i) :
    readReg (writeReg s r v) r = v := by
  cases r <;> first | rfl | exact absurd rfl (h _)

theorem readReg_writeReg_other (s : State) {r q : Reg} (v : Word) (h : q ≠ r) :
    readReg (writeReg s r v) q = readReg s q := by
  cases r <;> cases q <;> first | rfl | exact absurd rfl h

/-- A write to a register operand changes nothing but registers. -/
theorem writeReg_frame (s : State) (r : Reg) (v : Word) :
    { writeReg s r v with a := s.a, b := s.b, c := s.c, d := s.d, sp := s.sp, pc := s.pc } = s := by
  cases r <;> rfl

/-- A write to a register and an update of the rest of the state do not disturb each other: the flags. -/
theorem writeReg_flags_comm (s : State) (r : Reg) (v : Word) (f : Byte) :
    writeReg { s with flags := f } r v = { writeReg s r v with flags := f } := by
  cases r <;> rfl

/-- The same for the host input. -/
theorem writeReg_input_comm (s : State) (r : Reg) (v : Word) (l : List Byte) :
    writeReg { s with input := l } r v = { writeReg s r v with input := l } := by
  cases r <;> rfl

/-- The writeback replaces whatever an instruction wrote to `PC` (R138). -/
theorem retire_writeReg_pc (s : State) (v : Word) : retire (writeReg s .pc v) = retire s := rfl

/-- The writeback after register, flag or input updates is the writeback of the step (R137). -/
theorem retire_eq_completed (s t : State) (hc : t.cursor = s.cursor) (hy : t.cycles = s.cycles) :
    retire t = completed s t := by
  simp [retire, completed, hc, hy]

/-! ### The flags byte -/

/-- The flags byte by masks (R25). -/
theorem packFlags_eq (old : Byte) (z c n o : Bool) : packFlags old z c n o = flagsByte old z c n o := by
  cases z <;> cases c <;> cases n <;> cases o <;> revert old <;> decide

/-- No flag computation writes bits 3..0 (R26). -/
theorem packFlags_reserved (old : Byte) (z c n o : Bool) : packFlags old z c n o &&& 0x0F#8 = old &&& 0x0F#8 := by
  cases z <;> cases c <;> cases n <;> cases o <;> revert old <;> decide

/-! ### Ports -/

theorem isPort_iff (addr : Word) :
    isPort addr = true ↔ addr = 0xFF00#16 ∨ addr = 0xFF01#16 ∨ addr = 0xFF02#16 ∨ addr = 0xFF03#16 := by
  simp [isPort, stdoutPort, stdinPort, timerControlPort, timerValuePort, or_assoc]

/-- The next address is another one. -/
theorem succ_ne (addr : Word) : addr + 1#16 ≠ addr := by
  intro h
  have := congrArg BitVec.toNat h
  simp at this
  omega

theorem succ_toNat_ne (addr : Word) : (addr + 1#16).toNat ≠ addr.toNat := fun h => succ_ne addr (BitVec.eq_of_toNat_eq h)

/-! ### Reads -/

theorem stdinRead_eq (s : State) :
    stdinRead s = if inputReady s = true then some (s.input.headD 0x00#8, { s with input := s.input.tail }) else none := by
  obtain ⟨a, b, c, d, sp, pc, f, m, h, r, cy, te, tv, cu, input, ie, out, ls⟩ := s
  cases input <;> cases ie <;> rfl

/-- `read_byte` in one line: it waits, or finds `byteAt` and consumes what a STDIN read consumes. -/
theorem readByte_eq (s : State) (addr : Word) :
    readByte s addr =
      if readReady s addr = true then some (byteAt s addr, { s with input := inputAfterByte s addr }) else none := by
  unfold readByte readReady byteAt inputAfterByte stdoutPort stdinPort timerControlPort timerValuePort
  by_cases h0 : addr = 0xFF00#16
  · subst h0; rfl
  by_cases h1 : addr = 0xFF01#16
  · subst h1; simp [stdinRead_eq]
  by_cases h2 : addr = 0xFF02#16
  · subst h2; rfl
  by_cases h3 : addr = 0xFF03#16
  · subst h3
    have : loByte s.timerValue = BitVec.ofNat 8 s.timerValue.toNat := by
      apply BitVec.eq_of_toNat_eq; simp [loByte]
    simp [this]
  simp [h0, h1, h2, h3]

theorem readReady_input (s : State) (addr : Word) (l : List Byte) (h : addr ≠ 0xFF01#16) :
    readReady { s with input := l } addr = readReady s addr := by
  have hb : (addr != 0xFF01#16) = true := by simpa using h
  simp [readReady, hb]

theorem byteAt_input (s : State) (addr : Word) (l : List Byte) (h : addr ≠ 0xFF01#16) :
    byteAt { s with input := l } addr = byteAt s addr := by
  simp [byteAt, h]

theorem wordOf_eq (lo hi : Byte) : wordOf lo hi = BitVec.ofNat 16 (lo.toNat + 0x100 * hi.toNat) := by
  apply BitVec.eq_of_toNat_eq
  have hl := lo.isLt
  have hh := hi.isLt
  simp only [wordOf, BitVec.toNat_append, BitVec.toNat_ofNat]
  rw [Nat.shiftLeft_eq, ← Nat.shiftLeft_eq, ← Nat.shiftLeft_add_eq_or_of_lt hl, Nat.shiftLeft_eq]
  omega

theorem loByte_eq (w : Word) : loByte w = BitVec.ofNat 8 w.toNat := by
  apply BitVec.eq_of_toNat_eq; simp [loByte]

theorem hiByte_eq (w : Word) : hiByte w = BitVec.ofNat 8 (w.toNat / 0x100) := by
  apply BitVec.eq_of_toNat_eq; simp [hiByte, Nat.shiftRight_eq_div_pow]

/-- `read_word` in one line. -/
theorem readWord_eq (s : State) (addr : Word) :
    readWord s addr =
      if wordReady s addr = true then some (wordAt s addr, { s with input := inputAfterWord s addr }) else none := by
  unfold readWord wordReady
  rw [readByte_eq]
  by_cases h1 : readReady s addr = true
  swap
  · simp [h1]
  simp only [h1, if_true, Bool.true_and]
  rw [readByte_eq]
  by_cases ha : addr = 0xFF01#16
  · subst ha
    have h2 : (0xFF01#16 + 1#16 : Word) = 0xFF02#16 := by decide
    simp only [h2]
    rw [readReady_input _ _ _ (by decide), byteAt_input _ _ _ (by decide)]
    have h3 : readReady s 0xFF02#16 = true := rfl
    simp [h3, wordOf_eq, wordAt, inputAfterByte, inputAfterWord]
  · have e : ({ s with input := inputAfterByte s addr } : State) = s := by simp [inputAfterByte, ha]
    rw [e]
    by_cases h2 : readReady s (addr + 1#16) = true
    · simp [h2, wordOf_eq, wordAt, inputAfterByte, inputAfterWord, ha]
    · simp [h2]

/-- `Pop` in one line. -/
theorem pop_eq (s : State) :
    pop s = if wordReady s s.sp = true then
      some (wordAt s s.sp, { s with sp := s.sp + 2#16, input := inputAfterWord s s.sp }) else none := by
  unfold pop
  rw [readWord_eq]
  by_cases h : wordReady s s.sp = true
  · simp [h, setSp]
  · simp [h]

/-! ### Writes -/

/-- `write_byte` in one line: memory, output and timer. -/
theorem writeByte_eq (s : State) (addr : Word) (v : Byte) :
    writeByte s addr v = { s with
      mem := if isPort addr = true then s.mem else s.mem.write addr.toNat v
      output := if addr = 0xFF00#16 then s.output ++ [v] else s.output
      timerEnabled := if addr = 0xFF02#16 then v != 0x00#8 else s.timerEnabled
      timerValue :=
        if addr = 0xFF02#16 then (if v = 0x00#8 then s.timerValue else 0x0000#16)
        else if addr = 0xFF03#16 then zextByte v else s.timerValue } := by
  by_cases h0 : addr = 0xFF00#16
  · subst h0; rfl
  by_cases h1 : addr = 0xFF01#16
  · subst h1; rfl
  by_cases h2 : addr = 0xFF02#16
  · subst h2
    by_cases hv : v = 0x00#8
    · subst hv; rfl
    · simp [writeByte, stdoutPort, stdinPort, timerControlPort, timerControlWrite, hv, isPort]
  by_cases h3 : addr = 0xFF03#16
  · subst h3; rfl
  have hp : ¬ isPort addr = true := by simp [isPort_iff, h0, h1, h2, h3]
  simp [writeByte, stdoutPort, stdinPort, timerControlPort, timerValuePort, h0, h1, h2, h3, hp]

/-- A byte write leaves every byte of memory but one, and the cells under the ports. -/
theorem writeByte_read (s : State) (addr : Word) (v : Byte) (n : Nat) :
    (writeByte s addr v).mem.read n = if isPort addr = false ∧ n = addr.toNat then v else s.mem.read n := by
  rw [writeByte_eq]
  by_cases hp : isPort addr = true
  · simp [hp]
  · simp [hp, Memory.read_write]

/-- A byte write leaves the registers, the flags, the run state, the counters and the host's input. -/
theorem writeByte_frame (s : State) (addr : Word) (v : Byte) :
    { writeByte s addr v with
      mem := s.mem, output := s.output, timerEnabled := s.timerEnabled, timerValue := s.timerValue } = s := by
  rw [writeByte_eq]

/-- What a byte read finds after a word write, cell by cell. -/
theorem writeWord_read (s : State) (addr v : Word) (n : Nat) :
    (writeWord s addr v).mem.read n =
      if isPort (addr + 1#16) = false ∧ n = (addr + 1#16).toNat then hiByte v
      else if isPort addr = false ∧ n = addr.toNat then loByte v else s.mem.read n := by
  simp only [writeWord, writeByte_read]

theorem byte_ne_zero (n : Nat) : (BitVec.ofNat 8 n != 0x00#8) = decide (n % 0x100 ≠ 0) := by
  rw [Bool.eq_iff_iff]
  simp [← BitVec.toNat_inj]

theorem byte_eq_zero (n : Nat) : BitVec.ofNat 8 n = 0x00#8 ↔ n % 0x100 = 0 := by
  simp [← BitVec.toNat_inj]

theorem zextByte_ofNat (n : Nat) : zextByte (BitVec.ofNat 8 n) = BitVec.ofNat 16 (n % 0x100) := by
  apply BitVec.eq_of_toNat_eq
  simp [zextByte]

/-- `addr + 1` is a given word exactly when `addr` is the word before it. -/
theorem succ_eq_iff (addr w : Word) : addr + 1#16 = w ↔ addr = w - 1#16 := by
  constructor
  · rintro rfl; simp
  · rintro rfl; simp

/-- `write_word` byte by byte. -/
theorem writeWord_stored (s : State) (addr v : Word) : WordStored s (writeWord s addr v) addr v := by
  have hnn := succ_toNat_ne addr
  have hv := v.isLt
  have hhi : v.toNat / 0x100 % 0x100 = v.toNat / 0x100 := by omega
  constructor
  · intro n h1 h2
    rw [writeWord_read, if_neg (fun h => h2 h.2), if_neg (fun h => h1 h.2)]
  · intro h
    rw [writeWord_read, if_neg (fun h => hnn h.2.symm), if_pos ⟨h, rfl⟩, loByte_eq]
  · intro h
    rw [writeWord_read, if_pos ⟨h, rfl⟩, hiByte_eq]
  · intro h
    rw [writeWord_read, if_neg (fun h => hnn h.2.symm), if_neg (fun h' => by simp [h] at h')]
  · intro h
    rw [writeWord_read, if_neg (fun h' => by simp [h] at h'), if_neg (fun h => hnn h.2)]
  · simp only [writeWord, writeByte_eq, loByte_eq, hiByte_eq]
    by_cases h : addr = 0xFF00#16
    · subst h; simp
    · simp [h]
  · simp only [writeWord, writeByte_eq, loByte_eq, hiByte_eq, byte_ne_zero, hhi]
    by_cases h : addr = 0xFF02#16
    · subst h; simp
    · simp only [h, if_false]
  · simp only [writeWord, writeByte_eq, loByte_eq, hiByte_eq, zextByte_ofNat, byte_eq_zero, hhi, succ_eq_iff]
    by_cases h : addr = 0xFF02#16
    · subst h; simp
    · by_cases h1 : addr = 0xFF01#16
      · subst h1
        by_cases hz : v.toNat / 256 = 0 <;> simp [hz]
      · have h1' : ¬ addr = 0xFF02#16 - 1#16 := h1
        have h' : ¬ addr = 0xFF03#16 - 1#16 := h
        simp only [h, h1', h', if_false]

/-- A word write leaves the registers, the flags, the run state, the counters and the host's input. -/
theorem writeWord_frame (s : State) (addr v : Word) :
    { writeWord s addr v with
      mem := s.mem, output := s.output, timerEnabled := s.timerEnabled, timerValue := s.timerValue } = s := by
  simp [writeWord, writeByte_eq]

/-- `Push` is a word write with `SP` moved first. -/
theorem push_eq (s : State) (v : Word) :
    push s v = { writeWord s (s.sp - 2#16) v with sp := s.sp - 2#16 } := by
  simp [push, setSp, writeWord, writeByte_eq]

end Sys2Proof.Machine
end

