-- ==== Sys2Proof/Laws/Alu.lean ====
section
/-! SUPPORT. The ALU functions in unbounded numbers: one lemma for each flag computation, and one that says all an ALU
instruction does. -/

namespace Sys2Proof.Machine

/-! ### Numbers and bits -/

theorem and_8000 (n : Nat) : n &&& 0x8000 ≠ 0 ↔ n.testBit 15 = true := by
  rw [show (0x8000 : Nat) = 2 ^ 15 by norm_num, Nat.and_two_pow]
  cases n.testBit 15 <;> simp

theorem and_8000_bne (n : Nat) : (n &&& 0x8000 != 0) = n.testBit 15 := by
  rw [Bool.eq_iff_iff]; simpa using and_8000 n

theorem and_FFFF (n : Nat) : n &&& 0xFFFF = n % 0x10000 := by
  rw [show (0xFFFF : Nat) = 2 ^ 16 - 1 by norm_num, Nat.and_two_pow_sub_one_eq_mod]

/-- Bit 15 of a word is bit 15 of any number it is the low half of. -/
theorem bit15_of_toNat (n : Nat) (x : Word) (h : x.toNat = n % 0x10000) : x.getLsbD 15 = n.testBit 15 := by
  rw [BitVec.getLsbD, h, show (0x10000 : Nat) = 2 ^ 16 from rfl, Nat.testBit_mod_two_pow]; simp

theorem word_eq_ofNat (v : Word) (n : Nat) (h : v.toNat = n % 0x10000) : v = BitVec.ofNat 16 n := by
  apply BitVec.eq_of_toNat_eq; simpa using h

/-! ### Addition and subtraction (R180, R181) -/

theorem aluAdd_o (x y : Word) :
    (aluAdd x y).o =
      (((x.toNat ^^^ (x.toNat + y.toNat)) &&& (y.toNat ^^^ (x.toNat + y.toNat))) &&& 0x8000 != 0) := by
  rw [and_8000_bne, aluAdd, aluResult]
  simp only [BitVec.getLsbD_and, BitVec.getLsbD_xor, Nat.testBit_and, Nat.testBit_xor]
  rw [bit15_of_toNat (x.toNat + y.toNat) (x + y) (by simp)]
  rfl

/-- The 16-bit difference is the low half of the 32-bit one. -/
theorem sub_toNat (x y : Word) : (x - y).toNat = ((x.toNat + 0x100000000 - y.toNat) % 0x100000000) % 0x10000 := by
  have := x.isLt
  have := y.isLt
  rw [BitVec.toNat_sub]
  omega

theorem aluSub_o (x y : Word) :
    (aluSub x y).o =
      (((x.toNat ^^^ y.toNat) &&& (x.toNat ^^^ ((x.toNat + 0x100000000 - y.toNat) % 0x100000000))) &&& 0x8000 != 0) := by
  rw [and_8000_bne, aluSub, aluResult]
  simp only [BitVec.getLsbD_and, BitVec.getLsbD_xor, Nat.testBit_and, Nat.testBit_xor]
  rw [bit15_of_toNat _ (x - y) (sub_toNat x y)]
  rfl

/-- The flags byte after an addition. -/
theorem setFlags_aluAdd (s : State) (x y : Word) : (setFlags s (aluAdd x y)).flags = addFlags s.flags x y := by
  simp only [State.setFlags_flags, packFlags_eq, addFlags]
  rw [aluAdd_o]
  simp only [and_8000_bne, and_FFFF]
  have hz : (aluAdd x y).z = ((x.toNat + y.toNat) % 65536 == 0) := by
    simp only [aluAdd, aluResult]; rw [Bool.eq_iff_iff]; simp [← BitVec.toNat_inj]
  have hn : (aluAdd x y).n = (x.toNat + y.toNat).testBit 15 := bit15_of_toNat (x.toNat + y.toNat) (x + y) (by simp)
  rw [hz, hn]
  rfl

/-- The flags byte after a subtraction or a compare. -/
theorem setFlags_aluSub (s : State) (x y : Word) : (setFlags s (aluSub x y)).flags = subFlags s.flags x y := by
  simp only [State.setFlags_flags, packFlags_eq, subFlags]
  rw [aluSub_o]
  simp only [and_8000_bne, and_FFFF]
  have hz : (aluSub x y).z = ((x.toNat + 0x100000000 - y.toNat) % 0x100000000 % 65536 == 0) := by
    rw [← sub_toNat]; simp only [aluSub, aluResult]; rw [Bool.eq_iff_iff]; simp [← BitVec.toNat_inj]
  have hn : (aluSub x y).n = ((x.toNat + 0x100000000 - y.toNat) % 0x100000000).testBit 15 :=
    bit15_of_toNat _ (x - y) (sub_toNat x y)
  rw [hz, hn]
  rfl

/-- The flags byte after an instruction with O = 0, from any number its result is the low half of. -/
theorem setFlags_aluResult (s : State) (v : Word) (n : Nat) (c : Bool) (h : v.toNat = n % 0x10000) :
    (setFlags s (aluResult v c false)).flags = resultFlags s.flags n c := by
  simp only [State.setFlags_flags, packFlags_eq, resultFlags]
  rw [and_8000_bne, and_FFFF]
  have hz : (aluResult v c false).z = (n % 65536 == 0) := by
    simp only [aluResult]; rw [Bool.eq_iff_iff, ← h]; simp [← BitVec.toNat_inj]
  have hn : (aluResult v c false).n = n.testBit 15 := bit15_of_toNat n v h
  rw [hz, hn]
  rfl

/-- All that an ALU instruction with a destination does. -/
theorem retireAlu_eq (s : State) (rd : Reg) (r : Alu) (v : Word) (f : Byte) (hv : r.value = v)
    (hf : (setFlags s r).flags = f) :
    retireAlu s rd r = .next (completed s { writeReg s rd v with flags := f }) := by
  subst hv
  subst hf
  cases rd <;> rfl

/-- The Z and C bits by mask and by place. -/
theorem flag_masks (f : Byte) :
    (f &&& 0x80#8 ≠ 0#8 ↔ flagZ f = true) ∧ (f &&& 0x40#8 ≠ 0#8 ↔ flagC f = true) := by
  revert f; decide

end Sys2Proof.Machine
end

