-- ==== Sys2Proof/Laws/Decode.lean ====
section
/-! SUPPORT. The bit fields and byte order of the encoding, each with its inverse. -/

namespace Sys2Proof

theorem index_ofByte (n : Byte) : (Reg.ofByte n).index = n := by revert n; decide

theorem wellFormedByte_ofByte (n : Byte) : (Reg.ofByte n).wellFormedByte = true := by revert n; decide

theorem wellFormedNibble_ofNibble (n : Nibble) : (Reg.ofNibble n).wellFormedNibble = true := by revert n; decide

theorem ofByte_index (r : Reg) (h : r.wellFormedByte = true) : Reg.ofByte r.index = r := by
  cases r with
  | invalid i =>
    simp only [Reg.wellFormedByte, decide_eq_true_eq] at h
    unfold Reg.ofByte Reg.index
    simp only
    split <;> first | omega | rfl
  | _ => rfl

theorem ofByte_of_ge (n : Byte) (h : 6 ≤ n.toNat) : Reg.ofByte n = .invalid n := by
  unfold Reg.ofByte
  split <;> first | omega | rfl

/-- A packed register operand comes back from its nibble. -/
theorem ofNibble_index (r : Reg) (h : r.wellFormedNibble = true) : Reg.ofNibble (r.index.extractLsb' 0 4) = r := by
  have hlt : r.index.toNat < 16 := by
    cases r with
    | invalid i => simp [Reg.wellFormedNibble] at h; simp [Reg.index]; omega
    | _ => decide
  have hb : r.wellFormedByte = true := by
    cases r with
    | invalid i => simp [Reg.wellFormedNibble] at h; simp [Reg.wellFormedByte]; omega
    | _ => rfl
  have hx : (r.index.extractLsb' 0 4).setWidth 8 = r.index := by
    apply BitVec.eq_of_toNat_eq
    simp; omega
  rw [Reg.ofNibble, hx, ofByte_index r hb]

theorem packRegs_low (x y : Reg) (hy : y.wellFormedNibble = true) :
    Reg.ofNibble ((packRegs x y).extractLsb' 0 4) = y := by
  rw [packRegs, BitVec.extractLsb'_append_eq_right, ofNibble_index y hy]

theorem packRegs_high (x y : Reg) (hx : x.wellFormedNibble = true) :
    Reg.ofNibble ((packRegs x y).extractLsb' 4 4) = x := by
  rw [packRegs, BitVec.extractLsb'_append_eq_left, ofNibble_index x hx]

/-- Packing the registers of a packed byte gives the byte back. -/
theorem packRegs_ofNibble (b : Byte) :
    packRegs (Reg.ofNibble (b.extractLsb' 4 4)) (Reg.ofNibble (b.extractLsb' 0 4)) = b := by revert b; decide

theorem loByte_wordOf (lo hi : Byte) : loByte (wordOf lo hi) = lo := by
  rw [wordOf, loByte, BitVec.extractLsb'_append_eq_right]

theorem hiByte_wordOf (lo hi : Byte) : hiByte (wordOf lo hi) = hi := by
  rw [wordOf, hiByte, BitVec.extractLsb'_append_eq_left]

theorem wordOf_bytes (w : Word) : wordOf (loByte w) (hiByte w) = w := by
  rw [Machine.wordOf_eq, Machine.loByte_eq, Machine.hiByte_eq]
  apply BitVec.eq_of_toNat_eq
  simp; omega

/-- The operand functions of the statements are the decoder's. -/
theorem regOf_eq (b : Byte) :
    Machine.regOf (b.toNat / 16) = Reg.ofNibble (b.extractLsb' 4 4) ∧
    Machine.regOf (b.toNat % 16) = Reg.ofNibble (b.extractLsb' 0 4) ∧ Machine.regOf b.toNat = Reg.ofByte b := by
  revert b; decide

theorem word16_eq (lo hi : Byte) : Machine.word16 lo hi = wordOf lo hi := (Machine.wordOf_eq lo hi).symm

end Sys2Proof
end

