-- ==== Sys2Proof/Laws/PerInstr.lean ====
section
/-! SUPPORT. Statements made for every instruction, one lemma per constructor of Instr. -/

namespace Sys2Proof.Laws

/-- R90, R92: the opcode byte of an instruction's encoding has a format, and as many bytes follow it as the format says. -/
def FormatLength.Statement (i : Instr) : Prop :=
  ∃ op rest sh, encode i = op :: rest ∧ shapeOf op = some sh ∧ rest.length = sh.operandBytes

theorem FormatLength.nop : FormatLength.Statement .nop := ⟨_, _, _, rfl, rfl, rfl⟩
theorem FormatLength.loadImm (r : Reg) (imm : Word) : FormatLength.Statement (.loadImm r imm) := ⟨_, _, _, rfl, rfl, rfl⟩
theorem FormatLength.loadMem (r : Reg) (addr : Word) : FormatLength.Statement (.loadMem r addr) := ⟨_, _, _, rfl, rfl, rfl⟩
theorem FormatLength.store (addr : Word) (r : Reg) : FormatLength.Statement (.store addr r) := ⟨_, _, _, rfl, rfl, rfl⟩
theorem FormatLength.mov (rd : Reg) (rs : Reg) : FormatLength.Statement (.mov rd rs) := ⟨_, _, _, rfl, rfl, rfl⟩
theorem FormatLength.push (r : Reg) : FormatLength.Statement (.push r) := ⟨_, _, _, rfl, rfl, rfl⟩
theorem FormatLength.pop (r : Reg) : FormatLength.Statement (.pop r) := ⟨_, _, _, rfl, rfl, rfl⟩
theorem FormatLength.add (rd : Reg) (rs : Reg) : FormatLength.Statement (.add rd rs) := ⟨_, _, _, rfl, rfl, rfl⟩
theorem FormatLength.addi (r : Reg) (imm : Word) : FormatLength.Statement (.addi r imm) := ⟨_, _, _, rfl, rfl, rfl⟩
theorem FormatLength.sub (rd : Reg) (rs : Reg) : FormatLength.Statement (.sub rd rs) := ⟨_, _, _, rfl, rfl, rfl⟩
theorem FormatLength.subi (r : Reg) (imm : Word) : FormatLength.Statement (.subi r imm) := ⟨_, _, _, rfl, rfl, rfl⟩
theorem FormatLength.mul (rd : Reg) (rs : Reg) : FormatLength.Statement (.mul rd rs) := ⟨_, _, _, rfl, rfl, rfl⟩
theorem FormatLength.div (rd : Reg) (rs : Reg) : FormatLength.Statement (.div rd rs) := ⟨_, _, _, rfl, rfl, rfl⟩
theorem FormatLength.inc (r : Reg) : FormatLength.Statement (.inc r) := ⟨_, _, _, rfl, rfl, rfl⟩
theorem FormatLength.dec (r : Reg) : FormatLength.Statement (.dec r) := ⟨_, _, _, rfl, rfl, rfl⟩
theorem FormatLength.and (rd : Reg) (rs : Reg) : FormatLength.Statement (.and rd rs) := ⟨_, _, _, rfl, rfl, rfl⟩
theorem FormatLength.or (rd : Reg) (rs : Reg) : FormatLength.Statement (.or rd rs) := ⟨_, _, _, rfl, rfl, rfl⟩
theorem FormatLength.xor (rd : Reg) (rs : Reg) : FormatLength.Statement (.xor rd rs) := ⟨_, _, _, rfl, rfl, rfl⟩
theorem FormatLength.not (r : Reg) : FormatLength.Statement (.not r) := ⟨_, _, _, rfl, rfl, rfl⟩
theorem FormatLength.shl (r : Reg) (k : Byte) : FormatLength.Statement (.shl r k) := ⟨_, _, _, rfl, rfl, rfl⟩
theorem FormatLength.shr (r : Reg) (k : Byte) : FormatLength.Statement (.shr r k) := ⟨_, _, _, rfl, rfl, rfl⟩
theorem FormatLength.cmp (rd : Reg) (rs : Reg) : FormatLength.Statement (.cmp rd rs) := ⟨_, _, _, rfl, rfl, rfl⟩
theorem FormatLength.cmpi (r : Reg) (imm : Word) : FormatLength.Statement (.cmpi r imm) := ⟨_, _, _, rfl, rfl, rfl⟩
theorem FormatLength.jmp (addr : Word) : FormatLength.Statement (.jmp addr) := ⟨_, _, _, rfl, rfl, rfl⟩
theorem FormatLength.jz (addr : Word) : FormatLength.Statement (.jz addr) := ⟨_, _, _, rfl, rfl, rfl⟩
theorem FormatLength.jnz (addr : Word) : FormatLength.Statement (.jnz addr) := ⟨_, _, _, rfl, rfl, rfl⟩
theorem FormatLength.jc (addr : Word) : FormatLength.Statement (.jc addr) := ⟨_, _, _, rfl, rfl, rfl⟩
theorem FormatLength.jnc (addr : Word) : FormatLength.Statement (.jnc addr) := ⟨_, _, _, rfl, rfl, rfl⟩
theorem FormatLength.call (addr : Word) : FormatLength.Statement (.call addr) := ⟨_, _, _, rfl, rfl, rfl⟩
theorem FormatLength.ret : FormatLength.Statement .ret := ⟨_, _, _, rfl, rfl, rfl⟩
theorem FormatLength.inPort (r : Reg) (port : Word) : FormatLength.Statement (.inPort r port) := ⟨_, _, _, rfl, rfl, rfl⟩
theorem FormatLength.outPort (port : Word) (r : Reg) : FormatLength.Statement (.outPort port r) := ⟨_, _, _, rfl, rfl, rfl⟩
theorem FormatLength.hlt : FormatLength.Statement .hlt := ⟨_, _, _, rfl, rfl, rfl⟩

end Sys2Proof.Laws
end

