-- ==== Sys2Proof/Laws/Step.lean ====
section
/-! SUPPORT. What a fetch, an execution and a step can do: one inversion lemma each. -/

namespace Sys2Proof.Machine

/-! ### Fetch -/

/-- One fetched byte in one line. -/
theorem fetchByte_eq (s : State) :
    fetchByte s = if readReady s s.cursor = true then
      some (byteAt s s.cursor, { s with input := inputAfterByte s s.cursor, cursor := s.cursor + 1#16 }) else none := by
  unfold fetchByte
  rw [readByte_eq]
  by_cases h : readReady s s.cursor = true
  · simp [h]
  · simp [h]

/-- The tick changes the timer value alone. -/
theorem tick_eq (s : State) : tick s = { s with timerValue := ticked s } := by
  unfold tick ticked
  have h : s.timerValue + 1#16 = BitVec.ofNat 16 (s.timerValue.toNat + 1) := by
    apply BitVec.eq_of_toNat_eq; simp
  by_cases ht : s.timerEnabled = true
  · simp [ht, h]
  · rw [if_neg ht, if_neg ht]

/-- The fetch in one line: opcode, tick, decode, operands (R131). -/
theorem fetch_eq (s : State) :
    fetch s =
      if readReady s s.pc = true then
        match shapeOf (byteAt s s.pc) with
        | none => .unknown { s with input := inputAfterByte s s.pc, cursor := s.pc + 1#16, timerValue := ticked s }
        | some sh =>
          fetchOperands sh { s with input := inputAfterByte s s.pc, cursor := s.pc + 1#16, timerValue := ticked s }
      else .waits := by
  unfold fetch
  rw [fetchByte_eq]
  have h1 : readReady (beginStep s) (beginStep s).cursor = readReady s s.pc := rfl
  have h2 : byteAt (beginStep s) (beginStep s).cursor = byteAt s s.pc := rfl
  rw [h1, h2]
  by_cases h : readReady s s.pc = true
  · simp only [h, if_true, tick_eq]
    rfl
  · simp [h]

/-- Fetched bytes: as many as asked for; the cursor moves past them; the input loses at most what it had. -/
theorem fetchBytes_spec (n : Nat) : ∀ (s s1 : State) (bytes : List Byte), fetchBytes n s = some (bytes, s1) →
    bytes.length = n ∧
      s1 = { s with cursor := s.cursor + BitVec.ofNat 16 n, input := s1.input } ∧ ∃ k, s1.input = s.input.drop k := by
  induction n with
  | zero =>
    intro s s1 bytes h
    obtain ⟨rfl, rfl⟩ : [] = bytes ∧ s = s1 := by simpa [fetchBytes] using h
    exact ⟨rfl, by simp, 0, by simp⟩
  | succ n ih =>
    intro s s1 bytes h
    rw [fetchBytes, fetchByte_eq] at h
    by_cases hr : readReady s s.cursor = true
    swap
    · simp [hr] at h
    simp only [hr, if_true] at h
    split at h
    · exact absurd h (by simp)
    · rename_i vs s2 hv
      obtain ⟨rfl, rfl⟩ : byteAt s s.cursor :: vs = bytes ∧ s2 = s1 := by simpa using h
      obtain ⟨hl, he, k, hk⟩ := ih _ _ _ hv
      refine ⟨by simp [hl], ?_, ?_⟩
      · rw [he]
        have : s.cursor + 1#16 + BitVec.ofNat 16 n = s.cursor + BitVec.ofNat 16 (n + 1) := by
          apply BitVec.eq_of_toNat_eq; simp; omega
        simp [this]
      · rw [hk]
        simp only [inputAfterByte]
        split
        · exact ⟨k + 1, by simp⟩
        · exact ⟨k, rfl⟩

/-! ### Executions -/

/-- What the part of an execution before its writeback leaves alone, and how far it can reach. -/
structure Touched (s u : State) : Prop where
  halted : u.halted = s.halted
  running : u.running = s.running
  cycles : u.cycles = s.cycles
  inputEnded : u.inputEnded = s.inputEnded
  reserved : u.flags &&& 0x0F#8 = s.flags &&& 0x0F#8
  memoryWf : s.mem.wf = true → u.mem.wf = true
  portCells : ∀ n, 0xFF00 ≤ n → n ≤ 0xFF03 → u.mem.read n = s.mem.read n
  output : ∃ sent : List Byte, sent.length ≤ 1 ∧ u.output = s.output ++ sent
  input : ∃ n, n ≤ 1 ∧ u.input = s.input.drop n

theorem Touched.refl (s : State) : Touched s s :=
  ⟨rfl, rfl, rfl, rfl, rfl, id, fun _ _ _ => rfl, ⟨[], by simp⟩, ⟨0, by simp⟩⟩

theorem Touched.writeReg {s u : State} (h : Touched s u) (r : Reg) (v : Word) : Touched s (writeReg u r v) :=
  ⟨by simp [h.halted], by simp [h.running], by simp [h.cycles], by simp [h.inputEnded], by simp [h.reserved],
    by simpa using h.memoryWf, by simpa using h.portCells, by simpa using h.output, by simpa using h.input⟩

theorem Touched.setFlags {s u : State} (h : Touched s u) (r : Alu) : Touched s (setFlags u r) :=
  ⟨h.halted, h.running, h.cycles, h.inputEnded, by simp [packFlags_reserved, h.reserved], h.memoryWf, h.portCells,
    h.output, h.input⟩

theorem Touched.jumpTo {s u : State} (h : Touched s u) (v : Word) : Touched s (jumpTo u v) :=
  ⟨h.halted, h.running, h.cycles, h.inputEnded, h.reserved, h.memoryWf, h.portCells, h.output, h.input⟩

theorem Touched.setSp {s u : State} (h : Touched s u) (v : Word) : Touched s (setSp u v) :=
  ⟨h.halted, h.running, h.cycles, h.inputEnded, h.reserved, h.memoryWf, h.portCells, h.output, h.input⟩

theorem Touched.afterByte (s : State) (addr : Word) : Touched s { s with input := inputAfterByte s addr } := by
  refine ⟨rfl, rfl, rfl, rfl, rfl, id, fun _ _ _ => rfl, ⟨[], by simp⟩, ?_⟩
  simp only [inputAfterByte]
  split
  · exact ⟨1, by simp, by simp⟩
  · exact ⟨0, by simp, by simp⟩

theorem Touched.afterWord (s : State) (addr : Word) : Touched s { s with input := inputAfterWord s addr } := by
  refine ⟨rfl, rfl, rfl, rfl, rfl, id, fun _ _ _ => rfl, ⟨[], by simp⟩, ?_⟩
  simp only [inputAfterWord]
  split
  · exact ⟨1, by simp, by simp⟩
  · exact ⟨0, by simp, by simp⟩

theorem port_toNat {addr : Word} (h : isPort addr = false) (n : Nat) (h1 : 0xFF00 ≤ n) (h2 : n ≤ 0xFF03) :
    n ≠ addr.toNat := by
  rintro rfl
  have hn : ¬ isPort addr = true := by simp [h]
  rw [isPort_iff] at hn
  apply hn
  have : addr.toNat = 0xFF00 ∨ addr.toNat = 0xFF01 ∨ addr.toNat = 0xFF02 ∨ addr.toNat = 0xFF03 := by omega
  simpa [← BitVec.toNat_inj] using this

theorem Touched.writeByte (s : State) (addr : Word) (v : Byte) : Touched s (writeByte s addr v) := by
  refine ⟨?_, ?_, ?_, ?_, ?_, ?_, ?_, ?_, ?_⟩
  · rw [writeByte_eq]
  · rw [writeByte_eq]
  · rw [writeByte_eq]
  · rw [writeByte_eq]
  · rw [writeByte_eq]
  · intro h
    rw [writeByte_eq]
    by_cases hp : isPort addr = true
    · simpa [hp] using h
    · simpa [hp] using Memory.wf_write _ _ _ h addr.isLt
  · intro n h1 h2
    rw [writeByte_read, if_neg]
    rintro ⟨hp, hn⟩
    exact port_toNat hp n h1 h2 hn
  · rw [writeByte_eq]
    by_cases h : addr = 0xFF00#16
    · exact ⟨[v], by simp, by simp [h]⟩
    · exact ⟨[], by simp, by simp [h]⟩
  · rw [writeByte_eq]; exact ⟨0, by simp, by simp⟩

theorem Touched.writeWord (s : State) (addr v : Word) : Touched s (writeWord s addr v) := by
  have h1 := Touched.writeByte s addr (loByte v)
  have h2 := Touched.writeByte (Machine.writeByte s addr (loByte v)) (addr + 1#16) (hiByte v)
  refine ⟨h2.halted.trans h1.halted, h2.running.trans h1.running, h2.cycles.trans h1.cycles,
    h2.inputEnded.trans h1.inputEnded, h2.reserved.trans h1.reserved, fun h => h2.memoryWf (h1.memoryWf h),
    fun n hl hh => (h2.portCells n hl hh).trans (h1.portCells n hl hh), ?_, ?_⟩
  · rw [(writeWord_stored s addr v).output]
    split
    · exact ⟨_, by simp, rfl⟩
    · split
      · exact ⟨_, by simp, rfl⟩
      · exact ⟨[], by simp, by simp⟩
  · exact ⟨0, by simp, by rw [← writeWord_frame s addr v]; simp [Machine.writeWord, writeByte_eq]⟩

theorem Touched.push (s : State) (v : Word) : Touched s (push s v) := by
  rw [push_eq]
  exact (Touched.writeWord s (s.sp - 2#16) v).setSp (s.sp - 2#16)

/-- How an execution can end: it waits on STDIN and has done nothing; it is a DIV by zero; it is HLT; or it touched some
state and made the writeback. -/
inductive Ends (i : Instr) (s : State) : State → Prop where
  | waits (h : inputReady s = false) : Ends i s (awaitInput s)
  | divideByZero (rd rs : Reg) (hi : i = .div rd rs) (hz : readReg s rs = 0#16) : Ends i s (raiseFatal .divideByZero s)
  | halts (hi : i = .hlt) : Ends i s (halt s)
  | retires (u : State) (hu : Touched s u) (h1 : i ≠ .hlt) (h2 : ∀ rd rs, i = .div rd rs → readReg s rs ≠ 0#16) :
      Ends i s (retire u)

theorem inputReady_of_not_readReady {s : State} {addr : Word} (h : ¬ readReady s addr = true) : inputReady s = false := by
  simp only [readReady, Bool.or_eq_true, not_or, Bool.not_eq_true] at h
  exact h.2

theorem inputReady_of_not_wordReady {s : State} {addr : Word} (h : ¬ wordReady s addr = true) : inputReady s = false := by
  by_cases h1 : readReady s addr = true
  · refine inputReady_of_not_readReady (addr := addr + 1#16) ?_
    simpa [wordReady, h1] using h
  · exact inputReady_of_not_readReady h1

/-- THE INVERSION OF `exec`: every instruction answers a next state, and it is one of `Ends`. -/
theorem exec_ends (i : Instr) (s : State) : ∃ t, exec i s = .next t ∧ Ends i s t := by
  have alu : ∀ rd r, i ≠ .hlt → (∀ p q, i ≠ .div p q) → exec i s = retireAlu s rd r →
      ∃ t, exec i s = .next t ∧ Ends i s t := fun rd r h1 h2 h =>
    ⟨_, h, .retires _ (((Touched.refl s).setFlags r).writeReg rd r.value) h1 (fun p q hi => absurd hi (h2 p q))⟩
  have simple : ∀ u, i ≠ .hlt → (∀ p q, i ≠ .div p q) → Touched s u → exec i s = .next (retire u) →
      ∃ t, exec i s = .next t ∧ Ends i s t := fun u h1 h2 hu h =>
    ⟨_, h, .retires u hu h1 (fun p q hi => absurd hi (h2 p q))⟩
  have jump : ∀ b addr, i ≠ .hlt → (∀ p q, i ≠ .div p q) → exec i s = retireJump s b addr →
      ∃ t, exec i s = .next t ∧ Ends i s t := fun b addr h1 h2 h =>
    ⟨_, h, .retires _ (by cases b; exact Touched.refl s; exact (Touched.refl s).jumpTo addr) h1
      (fun p q hi => absurd hi (h2 p q))⟩
  cases i with
  | nop => exact simple s (by simp) (by simp) (.refl s) rfl
  | loadImm r imm => exact simple _ (by simp) (by simp) ((Touched.refl s).writeReg r imm) rfl
  | loadMem r addr =>
    by_cases h : wordReady s addr = true
    · exact simple _ (by simp) (by simp) ((Touched.afterWord s addr).writeReg r (wordAt s addr))
        (by simp [exec, execLoadMem, readWord_eq, h])
    · exact ⟨_, by simp [exec, execLoadMem, readWord_eq, h], .waits (inputReady_of_not_wordReady h)⟩
  | store addr r => exact simple _ (by simp) (by simp) (Touched.writeWord s addr (readReg s r)) rfl
  | mov rd rs => exact simple _ (by simp) (by simp) ((Touched.refl s).writeReg rd (readReg s rs)) rfl
  | push r => exact simple _ (by simp) (by simp) (Touched.push s (readReg s r)) rfl
  | pop r =>
    by_cases h : wordReady s s.sp = true
    · exact simple _ (by simp) (by simp) (((Touched.afterWord s s.sp).setSp (s.sp + 2#16)).writeReg r (wordAt s s.sp))
        (by simp [exec, execPop, pop_eq, h, setSp])
    · exact ⟨_, by simp [exec, execPop, pop_eq, h], .waits (inputReady_of_not_wordReady h)⟩
  | add rd rs => exact alu _ _ (by simp) (by simp) rfl
  | addi r imm => exact alu _ _ (by simp) (by simp) rfl
  | sub rd rs => exact alu _ _ (by simp) (by simp) rfl
  | subi r imm => exact alu _ _ (by simp) (by simp) rfl
  | mul rd rs => exact alu _ _ (by simp) (by simp) rfl
  | div rd rs =>
    by_cases h : readReg s rs = 0#16
    · exact ⟨_, by simp [exec, execDiv, h], .divideByZero rd rs rfl h⟩
    · have e := (((Touched.refl s).setFlags (aluDiv (readReg s rd) (readReg s rs))).writeReg rd
        (aluDiv (readReg s rd) (readReg s rs)).value).writeReg rs (divRemainder (readReg s rd) (readReg s rs))
      refine ⟨_, by simp only [exec, execDiv, h, if_false], .retires _ e (by simp) ?_⟩
      · rintro p q hi; cases hi; exact h
  | inc r => exact alu _ _ (by simp) (by simp) rfl
  | dec r => exact alu _ _ (by simp) (by simp) rfl
  | and rd rs => exact alu _ _ (by simp) (by simp) rfl
  | or rd rs => exact alu _ _ (by simp) (by simp) rfl
  | xor rd rs => exact alu _ _ (by simp) (by simp) rfl
  | not r => exact alu _ _ (by simp) (by simp) rfl
  | shl r k => exact alu _ _ (by simp) (by simp) rfl
  | shr r k => exact alu _ _ (by simp) (by simp) rfl
  | cmp rd rs => exact simple _ (by simp) (by simp) ((Touched.refl s).setFlags _) rfl
  | cmpi r imm => exact simple _ (by simp) (by simp) ((Touched.refl s).setFlags _) rfl
  | jmp addr => exact jump _ _ (by simp) (by simp) rfl
  | jz addr => exact jump _ _ (by simp) (by simp) rfl
  | jnz addr => exact jump _ _ (by simp) (by simp) rfl
  | jc addr => exact jump _ _ (by simp) (by simp) rfl
  | jnc addr => exact jump _ _ (by simp) (by simp) rfl
  | call addr => exact simple _ (by simp) (by simp) ((Touched.push s s.cursor).jumpTo addr) rfl
  | ret =>
    by_cases h : wordReady s s.sp = true
    · exact simple _ (by simp) (by simp) (((Touched.afterWord s s.sp).setSp (s.sp + 2#16)).jumpTo (wordAt s s.sp))
        (by simp [exec, execRet, pop_eq, h, setSp])
    · exact ⟨_, by simp [exec, execRet, pop_eq, h], .waits (inputReady_of_not_wordReady h)⟩
  | inPort r port =>
    by_cases h : readReady s port = true
    · exact simple _ (by simp) (by simp) ((Touched.afterByte s port).writeReg r (zextByte (byteAt s port)))
        (by simp [exec, execIn, readByte_eq, h])
    · exact ⟨_, by simp [exec, execIn, readByte_eq, h], .waits (inputReady_of_not_readReady h)⟩
  | outPort port r => exact simple _ (by simp) (by simp) (Touched.writeByte s port _) rfl
  | hlt => exact ⟨_, rfl, .halts rfl⟩

/-! ### The step -/

/-- THE INVERSION OF `step`: a halted core answers so; a fetch waits, meets an illegal opcode, or gives an instruction; and
the execution of that ends as `Ends` says. -/
theorem step_cases (s t : State) (h : step s = .next t) :
    (s.halted = true ∧ t = alreadyHalted s) ∨
    (s.halted = false ∧ fetch s = .waits ∧ t = awaitInput s) ∨
    (∃ s1, s.halted = false ∧ fetch s = .unknown s1 ∧ t = raiseFatal .unknownOpcode s1) ∨
    (∃ i s1, s.halted = false ∧ fetch s = .fetched i s1 ∧ exec i s1 = .next (awaitInput s1) ∧ inputReady s1 = false ∧
      t = awaitInput s) ∨
    (∃ i s1, s.halted = false ∧ fetch s = .fetched i s1 ∧ exec i s1 = .next t ∧ Ends i s1 t ∧ t.lastStep ≠ .waiting) := by
  unfold step at h
  by_cases hh : s.halted = true
  · left
    simp only [hh, if_true, Host.Outcome.next.injEq] at h
    exact ⟨hh, h.symm⟩
  have hf : s.halted = false := by simpa using hh
  right
  simp only [hf, Bool.false_eq_true, if_false] at h
  split at h
  · rename_i hw
    left
    exact ⟨hf, hw, by simpa [eq_comm] using h⟩
  · rename_i s1 hw
    right; left
    exact ⟨s1, hf, hw, by simpa [eq_comm] using h⟩
  · rename_i i s1 hw
    right; right
    obtain ⟨u, hu, he⟩ := exec_ends i s1
    rw [hu] at h
    by_cases hl : u.lastStep = .waiting
    · left
      simp only [settle, hl, if_true, Host.Outcome.next.injEq] at h
      cases he with
      | waits hr => exact ⟨i, s1, hf, hw, hu, hr, h.symm⟩
      | divideByZero => simp at hl
      | halts => simp at hl
      | retires => simp at hl
    · right
      simp only [settle, hl, if_false, Host.Outcome.next.injEq] at h
      subst h
      exact ⟨i, s1, hf, hw, hu, he, hl⟩

/-! ### Fetching from memory -/

theorem noPortIn_succ (addr : Word) (n : Nat) :
    noPortIn addr (n + 1) = true ↔ isPort addr = false ∧ noPortIn (addr + 1#16) n = true := by
  simp [noPortIn]

/-- A byte away from the ports is there to be read, and is the byte of memory. -/
theorem read_ram (s : State) (addr : Word) (h : isPort addr = false) :
    readReady s addr = true ∧ byteAt s addr = s.mem.read addr.toNat ∧ inputAfterByte s addr = s.input := by
  have hn : ¬ isPort addr = true := by simp [h]
  rw [isPort_iff] at hn
  simp only [not_or] at hn
  simp [readReady, byteAt, inputAfterByte, hn]

theorem bytesAt_length (n : Nat) : ∀ (s : State) (addr : Word), (bytesAt s addr n).length = n := by
  induction n with
  | zero => intros; rfl
  | succ n ih => intro s addr; simp [bytesAt, ih]

theorem bytesAt_take (n : Nat) : ∀ (m : Nat) (s : State) (addr : Word),
    (bytesAt s addr (n + m)).take n = bytesAt s addr n := by
  induction n with
  | zero => intros; simp [bytesAt]
  | succ n ih => intro m s addr; rw [Nat.succ_add_eq_add_succ, Nat.add_succ]; simp [bytesAt, ih]

theorem bytesAt_of_mem (n : Nat) : ∀ (s t : State) (addr : Word), s.mem = t.mem → bytesAt s addr n = bytesAt t addr n := by
  induction n with
  | zero => intros; rfl
  | succ n ih => intro s t addr h; simp [bytesAt, h, ih s t _ h]

/-- Bytes fetched where no port is are the bytes of memory, and only the cursor moves. -/
theorem fetchBytes_ram (n : Nat) : ∀ s : State, noPortIn s.cursor n = true →
    fetchBytes n s = some (bytesAt s s.cursor n, { s with cursor := s.cursor + BitVec.ofNat 16 n }) := by
  induction n with
  | zero => intro s h; simp [fetchBytes, bytesAt]
  | succ n ih =>
    intro s h
    obtain ⟨h1, h2⟩ := (noPortIn_succ _ _).1 h
    obtain ⟨r1, r2, r3⟩ := read_ram s s.cursor h1
    rw [fetchBytes, fetchByte_eq]
    simp only [r1, r2, r3, if_true]
    rw [ih _ h2]
    have : s.cursor + 1#16 + BitVec.ofNat 16 n = s.cursor + BitVec.ofNat 16 (n + 1) := by
      apply BitVec.eq_of_toNat_eq; simp; omega
    simp [this, bytesAt]
    exact bytesAt_of_mem n _ _ _ rfl

/-! ### Fetching from anywhere -/

theorem bytesFound_of_eq (n : Nat) (s t : State) (addr : Word) (hm : t.mem = s.mem) (hi : t.input = s.input)
    (he : t.timerEnabled = s.timerEnabled) (hv : t.timerValue = s.timerValue) :
    bytesFound t addr n = bytesFound s addr n := by
  induction n generalizing addr with
  | zero => rfl
  | succ n ih => simp only [bytesFound, ih, byteAt, hm, hi, he, hv]

theorem bytesReady_of_eq (n : Nat) (s t : State) (addr : Word) (hi : t.input = s.input)
    (he : t.inputEnded = s.inputEnded) : bytesReady t addr n = bytesReady s addr n := by
  induction n generalizing addr with
  | zero => rfl
  | succ n ih => simp only [bytesReady, ih, readReady, inputReady, hi, he]

theorem inputAfterBytes_of_eq (n : Nat) (s t : State) (addr : Word) (hi : t.input = s.input) :
    inputAfterBytes t addr n = inputAfterBytes s addr n := by
  induction n generalizing addr with
  | zero => exact hi
  | succ n ih => simp only [inputAfterBytes, ih, hi]

theorem bytesFound_length (n : Nat) (s : State) (addr : Word) : (bytesFound s addr n).length = n := by
  induction n generalizing addr with
  | zero => rfl
  | succ n ih => simp [bytesFound, ih]

theorem bytesFound_take (n m : Nat) (s : State) (addr : Word) :
    (bytesFound s addr (n + m)).take n = bytesFound s addr n := by
  induction n generalizing addr with
  | zero => simp [bytesFound]
  | succ n ih => rw [Nat.succ_add_eq_add_succ, Nat.add_succ]; simp [bytesFound, ih]

/-- Away from the ports the bytes found are those of memory, nothing waits and no input is consumed. -/
theorem bytesFound_ram (n : Nat) (s : State) (addr : Word) (h : noPortIn addr n = true) :
    bytesFound s addr n = bytesAt s addr n ∧ bytesReady s addr n = true ∧ inputAfterBytes s addr n = s.input := by
  induction n generalizing addr with
  | zero => exact ⟨rfl, rfl, rfl⟩
  | succ n ih =>
    obtain ⟨h1, h2⟩ := (noPortIn_succ _ _).1 h
    obtain ⟨r1, r2, _⟩ := read_ram s addr h1
    obtain ⟨i1, i2, i3⟩ := ih _ h2
    have hne : addr ≠ 0xFF01#16 := by rintro rfl; simp [isPort, stdinPort] at h1
    exact ⟨by simp [bytesFound, bytesAt, r2, i1], by simp [bytesReady, r1, i2], by simp [inputAfterBytes, hne, i3]⟩

/-- All that fetching the operand bytes does, wherever they are: it waits, or finds the bytes of memory and of the port
handlers, moves the cursor and consumes the STDIN byte among them. -/
theorem fetchBytes_eq (n : Nat) (hn : n ≤ 3) : ∀ s : State,
    fetchBytes n s =
      if bytesReady s s.cursor n = true then
        some (bytesFound s s.cursor n,
          { s with cursor := s.cursor + BitVec.ofNat 16 n, input := inputAfterBytes s s.cursor n })
      else none := by
  induction n with
  | zero => intro s; simp [fetchBytes, bytesReady, bytesFound, inputAfterBytes]
  | succ n ih =>
    intro s
    rw [fetchBytes, fetchByte_eq]
    by_cases hr : readReady s s.cursor = true
    · have hcur : s.cursor + 1#16 + BitVec.ofNat 16 n = s.cursor + BitVec.ofNat 16 (n + 1) := by
        apply BitVec.eq_of_toNat_eq; simp; omega
      simp only [hr, if_true, bytesReady, Bool.true_and, bytesFound, inputAfterBytes]
      rw [ih (by omega)]
      by_cases hc : s.cursor = 0xFF01#16
      · rw [hc] at hcur ⊢
        obtain rfl | rfl | rfl : n = 0 ∨ n = 1 ∨ n = 2 := by omega
        all_goals simp [bytesReady, readReady, bytesFound, byteAt, inputAfterBytes, inputAfterByte]
      · have hi : inputAfterByte s s.cursor = s.input := if_neg hc
        rw [if_neg hc]
        simp only [hi, hcur]
        have e1 := bytesReady_of_eq n s { s with cursor := s.cursor + 1#16 } (s.cursor + 1#16) rfl rfl
        have e2 := bytesFound_of_eq n s { s with cursor := s.cursor + 1#16 } (s.cursor + 1#16) rfl rfl rfl rfl
        have e3 := inputAfterBytes_of_eq n s { s with cursor := s.cursor + 1#16 } (s.cursor + 1#16) rfl
        rw [e1, e2, e3]
        by_cases hb : bytesReady s (s.cursor + 1#16) n = true
        · simp [hb]
        · simp [hb]
    · simp [bytesReady, hr]

/-- All that `settle` does with an execution's next state. -/
theorem settle_next (s t : State) :
    settle s (.next t) = if t.lastStep = .waiting then .next (awaitInput s) else .next t := rfl

end Sys2Proof.Machine
end

