-- ==== Sys2Proof/Machine/Printing.lean ====
section
/-! DEFINITION. The two texts the spec fixes: the disassembly notation (spec/30_encoding.md R118) and the host's trace line
(spec/70_reset_and_hazards.md R314). Neither is part of the core. -/

namespace Sys2Proof.Machine

/-- One hex digit, upper case (D37). -/
def hexDigit (n : Nat) : Char := ['0', '1', '2', '3', '4', '5', '6', '7', '8', '9', 'A', 'B', 'C', 'D', 'E', 'F'].getD (n % 16) '0'

/-- Four hex digits. -/
def hex4 (w : Word) : String :=
  String.ofList [hexDigit (w.toNat / 4096), hexDigit (w.toNat / 256), hexDigit (w.toNat / 16), hexDigit w.toNat]

/-- A word in disassembly (R118). -/
def wordText (w : Word) : String := "0x" ++ hex4 w

/-- A shift count in disassembly (R118). -/
def countText (k : Byte) : String := toString k.toNat

/-- A register by name, an index above 5 as `reg<i>` (R112, R118). -/
def regText : Reg → String
  | .a => "A"
  | .b => "B"
  | .c => "C"
  | .d => "D"
  | .sp => "SP"
  | .pc => "PC"
  | .invalid i => "reg" ++ toString i.toNat

/-- A memory operand (R111, R114). -/
def memText (w : Word) : String := "[" ++ wordText w ++ "]"

/-- A mnemonic and its operands (R118). -/
def line (mnemonic : String) (operands : List String) : String :=
  if operands.isEmpty then mnemonic else mnemonic ++ " " ++ ",".intercalate operands

/-- The text of an instruction (R111, R118). -/
def disassemble : Instr → String
  | .nop => line "NOP" []
  | .loadImm r imm => line "LOAD" [regText r, wordText imm]
  | .loadMem r addr => line "LOAD" [regText r, memText addr]
  | .store addr r => line "STORE" [memText addr, regText r]
  | .mov rd rs => line "MOV" [regText rd, regText rs]
  | .push r => line "PUSH" [regText r]
  | .pop r => line "POP" [regText r]
  | .add rd rs => line "ADD" [regText rd, regText rs]
  | .addi r imm => line "ADDI" [regText r, wordText imm]
  | .sub rd rs => line "SUB" [regText rd, regText rs]
  | .subi r imm => line "SUBI" [regText r, wordText imm]
  | .mul rd rs => line "MUL" [regText rd, regText rs]
  | .div rd rs => line "DIV" [regText rd, regText rs]
  | .inc r => line "INC" [regText r]
  | .dec r => line "DEC" [regText r]
  | .and rd rs => line "AND" [regText rd, regText rs]
  | .or rd rs => line "OR" [regText rd, regText rs]
  | .xor rd rs => line "XOR" [regText rd, regText rs]
  | .not r => line "NOT" [regText r]
  | .shl r k => line "SHL" [regText r, countText k]
  | .shr r k => line "SHR" [regText r, countText k]
  | .cmp rd rs => line "CMP" [regText rd, regText rs]
  | .cmpi r imm => line "CMPI" [regText r, wordText imm]
  | .jmp addr => line "JMP" [wordText addr]
  | .jz addr => line "JZ" [wordText addr]
  | .jnz addr => line "JNZ" [wordText addr]
  | .jc addr => line "JC" [wordText addr]
  | .jnc addr => line "JNC" [wordText addr]
  | .call addr => line "CALL" [wordText addr]
  | .ret => line "RET" []
  | .inPort r port => line "IN" [regText r, wordText port]
  | .outPort port r => line "OUT" [wordText port, regText r]
  | .hlt => line "HLT" []

/-- The trace line (R314); `cycles` in decimal and hex digits in upper case are log entry 8's choice. -/
def traceLine (s : State) : String :=
  "CYC=" ++ toString s.cycles.toNat ++ " PC=" ++ hex4 s.pc ++ " A=" ++ hex4 s.a ++ " B=" ++ hex4 s.b ++ " C=" ++ hex4 s.c
    ++ " D=" ++ hex4 s.d

end Sys2Proof.Machine
end

