-- ==== Sys2Proof/Tests/Slice0.lean ====
section
/-! SUPPORT. Tests: ill-formed terms that WellFormed refuses, one word written out for every constructor, one step at a time
from the vectors of spec/95_test_vectors.md (the section stands at each group), and a witness for the hypotheses of every
statement that has any, clause by clause at the ends of its ranges. -/

namespace Sys2Proof.Tests

open Sys2Proof Sys2Proof.Machine

/-- One step of `s` with these bytes at its `PC`; `s` itself if there is no next state (there always is). -/
def run1 (s : State) (bytes : List Byte) : State :=
  match step { s with mem := s.mem.copyIn s.pc bytes } with
  | .next t => t
  | .fault _ => s
  | .refused _ => s

/-- The instruction that these bytes are, when they are one and nothing is left over. -/
def reads (bytes : List Byte) : Option Instr :=
  match decode bytes with
  | .ok (i, []) => some i
  | _ => none

/-- The reset state with A and B set. -/
def withAB (x y : Word) : State := { State.reset with a := x, b := y }

/-! ### WellFormed: one ill-formed term for each check (R91, R93, R94) -/

theorem test_illformed_reg_byte : List.all [(.loadImm (.invalid 5#8) 0#16 : Instr),
    (.loadMem (.invalid 0#8) 0#16 : Instr),
    (.store 0#16 (.invalid 4#8) : Instr),
    (.push (.invalid 3#8) : Instr),
    (.pop (.invalid 1#8) : Instr),
    (.addi (.invalid 2#8) 0#16 : Instr),
    (.subi (.invalid 5#8) 0#16 : Instr),
    (.inc (.invalid 5#8) : Instr),
    (.dec (.invalid 0#8) : Instr),
    (.not (.invalid 4#8) : Instr),
    (.shl (.invalid 5#8) 0#8 : Instr),
    (.shr (.invalid 2#8) 0#8 : Instr),
    (.cmpi (.invalid 1#8) 0#16 : Instr),
    (.inPort (.invalid 5#8) 0#16 : Instr),
    (.outPort 0#16 (.invalid 3#8) : Instr)] (fun i => !i.wellFormed) = true := by decide
theorem test_illformed_packed_destination : List.all [(.mov (.invalid 16#8) .a : Instr),
    (.add (.invalid 16#8) .a : Instr),
    (.sub (.invalid 16#8) .a : Instr),
    (.mul (.invalid 16#8) .a : Instr),
    (.div (.invalid 16#8) .a : Instr),
    (.and (.invalid 16#8) .a : Instr),
    (.or (.invalid 16#8) .a : Instr),
    (.xor (.invalid 16#8) .a : Instr),
    (.cmp (.invalid 16#8) .a : Instr)] (fun i => !i.wellFormed) = true := by decide
theorem test_illformed_packed_source : List.all [(.mov .a (.invalid 16#8) : Instr),
    (.add .a (.invalid 16#8) : Instr),
    (.sub .a (.invalid 16#8) : Instr),
    (.mul .a (.invalid 16#8) : Instr),
    (.div .a (.invalid 16#8) : Instr),
    (.and .a (.invalid 16#8) : Instr),
    (.or .a (.invalid 16#8) : Instr),
    (.xor .a (.invalid 16#8) : Instr),
    (.cmp .a (.invalid 16#8) : Instr)] (fun i => !i.wellFormed) = true := by decide
theorem test_illformed_packed_valid_index : List.all [(.mov .a (.invalid 5#8) : Instr),
    (.add .a (.invalid 5#8) : Instr),
    (.sub .a (.invalid 5#8) : Instr),
    (.mul .a (.invalid 5#8) : Instr),
    (.div .a (.invalid 5#8) : Instr),
    (.and .a (.invalid 5#8) : Instr),
    (.or .a (.invalid 5#8) : Instr),
    (.xor .a (.invalid 5#8) : Instr),
    (.cmp .a (.invalid 5#8) : Instr)] (fun i => !i.wellFormed) = true := by decide
theorem test_wellformed_edges : List.all [(.push (.invalid 6#8) : Instr), .push (.invalid 255#8), .add (.invalid 15#8) (.invalid 6#8)]
    Instr.wellFormed = true := by decide

/-! ### Decoding: one word for every constructor, written out from R92 and R98 -/

theorem test_decode_nop : reads [0x00#8] = some .nop := by decide
theorem test_decode_loadImm : reads [0x01#8, 0x00#8, 0x34#8, 0x12#8] = some (.loadImm .a 0x1234#16) := by decide
theorem test_decode_loadMem : reads [0x02#8, 0x01#8, 0x00#8, 0x20#8] = some (.loadMem .b 0x2000#16) := by decide
theorem test_decode_store : reads [0x03#8, 0x02#8, 0x20#8, 0x01#8] = some (.store 0x2002#16 .b) := by decide
theorem test_decode_mov : reads [0x04#8, 0x45#8] = some (.mov .sp .pc) := by decide
theorem test_decode_push : reads [0x05#8, 0x03#8] = some (.push .d) := by decide
theorem test_decode_pop : reads [0x06#8, 0x10#8] = some (.pop (.invalid 16#8)) := by decide
theorem test_decode_add : reads [0x10#8, 0x12#8] = some (.add .b .c) := by decide
theorem test_decode_addi : reads [0x11#8, 0x07#8, 0x05#8, 0x00#8] = some (.addi (.invalid 7#8) 5#16) := by decide
theorem test_decode_sub : reads [0x12#8, 0x06#8] = some (.sub .a (.invalid 6#8)) := by decide
theorem test_decode_subi : reads [0x13#8, 0x00#8, 0x30#8, 0x00#8] = some (.subi .a 48#16) := by decide
theorem test_decode_mul : reads [0x14#8, 0x12#8] = some (.mul .b .c) := by decide
theorem test_decode_div : reads [0x15#8, 0x10#8] = some (.div .b .a) := by decide
theorem test_decode_inc : reads [0x16#8, 0x04#8] = some (.inc .sp) := by decide
theorem test_decode_dec : reads [0x17#8, 0x02#8] = some (.dec .c) := by decide
theorem test_decode_and : reads [0x20#8, 0x01#8] = some (.and .a .b) := by decide
theorem test_decode_or : reads [0x21#8, 0xF6#8] = some (.or (.invalid 15#8) (.invalid 6#8)) := by decide
theorem test_decode_xor : reads [0x22#8, 0x23#8] = some (.xor .c .d) := by decide
theorem test_decode_not : reads [0x23#8, 0x05#8] = some (.not .pc) := by decide
theorem test_decode_shl : reads [0x24#8, 0x00#8, 0x0F#8] = some (.shl .a 15#8) := by decide
theorem test_decode_shr : reads [0x25#8, 0x01#8, 0xFF#8] = some (.shr .b 255#8) := by decide
theorem test_decode_cmp : reads [0x30#8, 0x01#8] = some (.cmp .a .b) := by decide
theorem test_decode_cmpi : reads [0x31#8, 0x00#8, 0x00#8, 0x80#8] = some (.cmpi .a 0x8000#16) := by decide
theorem test_decode_jmp : reads [0x40#8, 0x00#8, 0x02#8] = some (.jmp 0x0200#16) := by decide
theorem test_decode_jz : reads [0x41#8, 0x00#8, 0x02#8] = some (.jz 0x0200#16) := by decide
theorem test_decode_jnz : reads [0x42#8, 0x08#8, 0x01#8] = some (.jnz 0x0108#16) := by decide
theorem test_decode_jc : reads [0x43#8, 0x00#8, 0x03#8] = some (.jc 0x0300#16) := by decide
theorem test_decode_jnc : reads [0x44#8, 0x14#8, 0x01#8] = some (.jnc 0x0114#16) := by decide
theorem test_decode_call : reads [0x45#8, 0x04#8, 0x01#8] = some (.call 0x0104#16) := by decide
theorem test_decode_ret : reads [0x46#8] = some .ret := by decide
theorem test_decode_in : reads [0x50#8, 0x01#8, 0x03#8, 0xFF#8] = some (.inPort .b 0xFF03#16) := by decide
theorem test_decode_out : reads [0x51#8, 0x02#8, 0xFF#8, 0x03#8] = some (.outPort 0xFF02#16 .d) := by decide
theorem test_decode_hlt : reads [0xFF#8] = some .hlt := by decide
theorem test_decode_unknown : decode [0x07#8, 0x00#8] = .error (.unknownOpcode 0x07#8) := by decide
theorem test_decode_truncated : decode [0x01#8, 0x00#8, 0x34#8] = .error .truncated := by decide
theorem test_table_word : decodeTableWord 32 0x12340001 = some (.loadImm .a 0x1234#16) := by decide

/-! ### One step: data movement (95_test_vectors.md 2.1) -/

theorem test_nop_wraps : let t := run1 { State.reset with pc := 0xFFFF#16 } [0x00#8]
    (t.pc, t.cycles, t.lastStep) = (0#16, 1#64, .executed) := by decide
theorem test_loadImm : let t := run1 State.reset [0x01#8, 0x00#8, 0x34#8, 0x12#8]
    (t.a, t.pc, t.flags) = (0x1234#16, 0x0104#16, 0x00#8) := by decide
theorem test_loadImm_pc_is_lost : let t := run1 { State.reset with pc := 0x0200#16 } [0x01#8, 0x05#8, 0x34#8, 0x12#8]
    (t.pc) = (0x0204#16) := by decide
theorem test_loadMem_timer_ports : let t := run1 { State.reset with timerEnabled := true, timerValue := 0x0104#16 } [0x02#8, 0x00#8, 0x02#8, 0xFF#8]
    (t.a, t.timerValue) = (0x0501#16, 0x0105#16) := by decide
theorem test_loadMem_wraps : let t := run1 { State.reset with mem := [(0x0000, 0x22#8), (0xFFFF, 0x11#8)] } [0x02#8, 0x00#8, 0xFF#8, 0xFF#8]
    (t.a) = (0x2211#16) := by decide
theorem test_store_into_stdout : let t := run1 (withAB 0x4142#16 0x0000#16) [0x03#8, 0xFF#8, 0xFE#8, 0x00#8]
    (t.mem.read 0xFEFF, t.output) = (0x42#8, [0x41#8]) := by decide
theorem test_store_stdout_stdin : let t := run1 (withAB 0x4142#16 0x0000#16) [0x03#8, 0x00#8, 0xFF#8, 0x00#8]
    (t.output, t.mem.read 0xFF00) = ([0x42#8], 0x00#8) := by decide
theorem test_mov_reads_pc0 : let t := run1 { State.reset with pc := 0x0200#16 } [0x04#8, 0x05#8]
    (t.a) = (0x0200#16) := by decide
theorem test_mov_invalid_source : let t := run1 (withAB 0x1234#16 0x0000#16) [0x04#8, 0x06#8]
    (t.a) = (0x0000#16) := by decide
theorem test_push_sp : let t := run1 State.reset [0x05#8, 0x04#8]
    (t.sp, t.mem.read 0xFEFD, t.mem.read 0xFEFE) = (0xFEFD#16, 0xFF#8, 0xFE#8) := by decide
theorem test_push_wraps : let t := run1 { withAB 0xBEEF#16 0x0000#16 with sp := 0x0001#16 } [0x05#8, 0x00#8]
    (t.sp, t.mem.read 0xFFFF, t.mem.read 0x0000) = (0xFFFF#16, 0xEF#8, 0xBE#8) := by decide
theorem test_pop_sp : let t := run1 { State.reset with sp := 0x2000#16, mem := [(0x2000, 0x34#8), (0x2001, 0x12#8)] } [0x06#8, 0x04#8]
    (t.sp) = (0x1234#16) := by decide
theorem test_pop_pc : let t := run1 { State.reset with sp := 0x2000#16, mem := [(0x2000, 0x34#8), (0x2001, 0x12#8)] } [0x06#8, 0x05#8]
    (t.sp, t.pc) = (0x2002#16, 0x0102#16) := by decide

/-! ### One step: arithmetic (95_test_vectors.md 1.1, 1.4, 2.2) -/

theorem test_add_wraps : let t := run1 (withAB 0xFFFF#16 0x0001#16) [0x10#8, 0x01#8]
    (t.a, t.flags) = (0x0000#16, 0xC0#8) := by decide
theorem test_add_overflows : let t := run1 (withAB 0x7FFF#16 0x0001#16) [0x10#8, 0x01#8]
    (t.a, t.flags) = (0x8000#16, 0x30#8) := by decide
theorem test_addi : let t := run1 (withAB 0x0001#16 0x0000#16) [0x11#8, 0x00#8, 0xFF#8, 0xFF#8]
    (t.a, t.flags) = (0x0000#16, 0xC0#8) := by decide
theorem test_addi_invalid : let t := run1 (withAB 0x1234#16 0x0000#16) [0x11#8, 0x07#8, 0x05#8, 0x00#8]
    (t.a, t.flags) = (0x1234#16, 0x00#8) := by decide
theorem test_sub_borrows : let t := run1 (withAB 0x0003#16 0x0005#16) [0x12#8, 0x01#8]
    (t.a, t.flags) = (0xFFFE#16, 0x60#8) := by decide
theorem test_sub_overflows : let t := run1 (withAB 0x7FFF#16 0xFFFF#16) [0x12#8, 0x01#8]
    (t.a, t.flags) = (0x8000#16, 0x70#8) := by decide
theorem test_subi : let t := run1 (withAB 0x0000#16 0x0000#16) [0x13#8, 0x00#8, 0x01#8, 0x00#8]
    (t.a, t.flags) = (0xFFFF#16, 0x60#8) := by decide
theorem test_mul_high_half : let t := run1 (withAB 0x0100#16 0x0100#16) [0x14#8, 0x01#8]
    (t.a, t.flags) = (0x0000#16, 0xC0#8) := by decide
theorem test_mul_unsigned : let t := run1 (withAB 0xFFFF#16 0xFFFF#16) [0x14#8, 0x01#8]
    (t.a, t.flags) = (0x0001#16, 0x40#8) := by decide
theorem test_div_remainder : let t := run1 (withAB 0x04D2#16 0x000A#16) [0x15#8, 0x01#8]
    (t.a, t.b, t.flags) = (0x007B#16, 0x0004#16, 0x00#8) := by decide
theorem test_div_same_register : let t := run1 (withAB 0x0009#16 0x0000#16) [0x15#8, 0x00#8]
    (t.a, t.flags) = (0x0000#16, 0x00#8) := by decide
theorem test_inc : let t := run1 (withAB 0xFFFF#16 0x0000#16) [0x16#8, 0x00#8]
    (t.a, t.flags) = (0x0000#16, 0x80#8) := by decide
theorem test_inc_no_overflow : let t := run1 (withAB 0x7FFF#16 0x0000#16) [0x16#8, 0x00#8]
    (t.a, t.flags) = (0x8000#16, 0x20#8) := by decide
theorem test_dec : let t := run1 (withAB 0x0000#16 0x0000#16) [0x17#8, 0x00#8]
    (t.a, t.flags) = (0xFFFF#16, 0x20#8) := by decide

/-! ### One step: logic, shifts, compare (95_test_vectors.md 2.3, 2.4) -/

theorem test_and : let t := run1 (withAB 0xF0F0#16 0x0FF0#16) [0x20#8, 0x01#8]
    (t.a, t.flags) = (0x00F0#16, 0x00#8) := by decide
theorem test_or_clears_c_o : let t := run1 { withAB 0x1234#16 0x0000#16 with flags := 0x50#8 } [0x21#8, 0x06#8]
    (t.a, t.flags) = (0x1234#16, 0x00#8) := by decide
theorem test_or : let t := run1 (withAB 0x8000#16 0x0001#16) [0x21#8, 0x01#8]
    (t.a, t.flags) = (0x8001#16, 0x20#8) := by decide
theorem test_xor : let t := run1 (withAB 0x5A5A#16 0x0000#16) [0x22#8, 0x00#8]
    (t.a, t.flags) = (0x0000#16, 0x80#8) := by decide
theorem test_not : let t := run1 (withAB 0x0000#16 0x0000#16) [0x23#8, 0x00#8]
    (t.a, t.flags) = (0xFFFF#16, 0x20#8) := by decide
theorem test_shl_carry : let t := run1 (withAB 0x1234#16 0x0000#16) [0x24#8, 0x00#8, 0x04#8]
    (t.a, t.flags) = (0x2340#16, 0x40#8) := by decide
theorem test_shl_16 : let t := run1 (withAB 0x0001#16 0x0000#16) [0x24#8, 0x00#8, 0x10#8]
    (t.a, t.flags) = (0x0000#16, 0xC0#8) := by decide
theorem test_shr_16 : let t := run1 (withAB 0x8000#16 0x0000#16) [0x25#8, 0x00#8, 0x10#8]
    (t.a, t.flags) = (0x0000#16, 0xC0#8) := by decide
theorem test_shr_0 : let t := run1 { withAB 0x8000#16 0x0000#16 with flags := 0x40#8 } [0x25#8, 0x00#8, 0x00#8]
    (t.a, t.flags) = (0x8000#16, 0x20#8) := by decide
theorem test_cmp : let t := run1 (withAB 0x0003#16 0x0005#16) [0x30#8, 0x01#8]
    (t.a, t.flags) = (0x0003#16, 0x60#8) := by decide
theorem test_cmpi : let t := run1 (withAB 0x0000#16 0x0000#16) [0x31#8, 0x00#8, 0x00#8, 0x80#8]
    (t.a, t.flags) = (0x0000#16, 0x70#8) := by decide

/-! ### One step: control transfer (95_test_vectors.md 2.5) -/

theorem test_jmp : let t := run1 State.reset [0x40#8, 0x00#8, 0x02#8]
    (t.pc, t.cycles) = (0x0200#16, 1#64) := by decide
theorem test_jz_taken : let t := run1 { State.reset with flags := 0x80#8 } [0x41#8, 0x00#8, 0x02#8]
    (t.pc) = (0x0200#16) := by decide
theorem test_jz_not_taken : let t := run1 { State.reset with flags := 0x70#8 } [0x41#8, 0x00#8, 0x02#8]
    (t.pc) = (0x0103#16) := by decide
theorem test_jnz_taken : let t := run1 { State.reset with flags := 0x00#8 } [0x42#8, 0x08#8, 0x01#8]
    (t.pc) = (0x0108#16) := by decide
theorem test_jnz_not_taken : let t := run1 { State.reset with flags := 0x80#8 } [0x42#8, 0x08#8, 0x01#8]
    (t.pc) = (0x0103#16) := by decide
theorem test_jc_taken : let t := run1 { State.reset with flags := 0x60#8 } [0x43#8, 0x00#8, 0x03#8]
    (t.pc) = (0x0300#16) := by decide
theorem test_jc_not_taken : let t := run1 { State.reset with flags := 0xB0#8 } [0x43#8, 0x00#8, 0x03#8]
    (t.pc) = (0x0103#16) := by decide
theorem test_jnc_taken : let t := run1 { State.reset with flags := 0x00#8 } [0x44#8, 0x14#8, 0x01#8]
    (t.pc) = (0x0114#16) := by decide
theorem test_jnc_not_taken : let t := run1 { State.reset with flags := 0x40#8 } [0x44#8, 0x14#8, 0x01#8]
    (t.pc) = (0x0103#16) := by decide
theorem test_call : let t := run1 State.reset [0x45#8, 0x04#8, 0x01#8]
    (t.sp, t.mem.read 0xFEFD, t.mem.read 0xFEFE, t.pc) = (0xFEFD#16, 0x03#8, 0x01#8, 0x0104#16) := by decide
theorem test_ret : let t := run1 { State.reset with sp := 0xFEFD#16, mem := [(0xFEFD, 0x03#8), (0xFEFE, 0x01#8)] } [0x46#8]
    (t.pc, t.sp) = (0x0103#16, 0xFEFF#16) := by decide
theorem test_ret_at_reset : let t := run1 State.reset [0x46#8]
    (t.pc, t.sp) = (0x0000#16, 0xFF01#16) := by decide

/-! ### One step: I/O, halt, errors (95_test_vectors.md 2.6, 2.7) -/

theorem test_in_stdin : let t := run1 { withAB 0xFFFF#16 0x0000#16 with input := [0x78#8] } [0x50#8, 0x00#8, 0x01#8, 0xFF#8]
    (t.a, t.input) = (0x0078#16, []) := by decide
theorem test_in_timer_after_tick : let t := run1 { State.reset with timerEnabled := true, timerValue := 0x00FF#16 } [0x50#8, 0x00#8, 0x03#8, 0xFF#8]
    (t.a, t.timerValue) = (0x0000#16, 0x0100#16) := by decide
theorem test_out_stdout : let t := run1 (withAB 0x4142#16 0x0000#16) [0x51#8, 0x00#8, 0xFF#8, 0x00#8]
    (t.output) = ([0x42#8]) := by decide
theorem test_out_stops_timer : let t := run1 { withAB 0x0100#16 0x0000#16 with timerEnabled := true, timerValue := 0x0007#16 } [0x51#8, 0x02#8, 0xFF#8, 0x00#8]
    (t.timerEnabled, t.timerValue) = (false, 0x0008#16) := by decide
theorem test_hlt : let t := run1 { State.reset with pc := 0x0108#16, running := true } [0xFF#8]
    (t.halted, t.running, t.pc, t.cycles) = (true, false, 0x0108#16, 0#64) := by decide
theorem test_halted_step : let t := run1 { State.reset with halted := true, timerEnabled := true } [0x00#8]
    (t.lastStep, t.timerValue, t.pc) = (.alreadyHalted, 0x0000#16, 0x0100#16) := by decide
theorem test_div_by_zero : let t := run1 (withAB 0x000A#16 0x0000#16) [0x15#8, 0x01#8]
    (t.lastStep, t.halted, t.a, t.pc, t.cycles) = (.fatal .divideByZero 0x0100#16, true, 0x000A#16, 0x0100#16, 0#64) := by decide
theorem test_unknown_opcode_ticks : let t := run1 { State.reset with timerEnabled := true, timerValue := 0x0005#16 } [0xFE#8]
    (t.lastStep, t.timerValue, t.pc) = (.fatal .unknownOpcode 0x0100#16, 0x0006#16, 0x0100#16) := by decide
theorem test_fetch_from_stdin : let t := run1 { State.reset with pc := 0xFF01#16, input := [0xFF#8] } []
    (t.halted, t.pc, t.input) = (true, 0xFF01#16, []) := by decide
theorem test_fetch_from_timer : let t := run1 { State.reset with pc := 0xFF03#16, timerEnabled := true, timerValue := 0x00FF#16 } []
    (t.halted, t.pc, t.timerValue) = (true, 0xFF03#16, 0x0100#16) := by decide
theorem test_waits_on_stdin : let t := run1 { State.reset with timerEnabled := true } [0x50#8, 0x00#8, 0x01#8, 0xFF#8]
    (t.lastStep, t.timerValue, t.pc) = (.waiting, 0x0000#16, 0x0100#16) := by decide
theorem test_placed_word_runs : step (State.reset.withFetchWord 32 0x12340001) =
    .next { State.reset.withFetchWord 32 0x12340001 with
      a := 0x1234#16, pc := 0x0104#16, cursor := 0x0104#16, cycles := 1#64, lastStep := .executed } := rfl
theorem test_disassemble : disassemble (.addi (.invalid 7#8) 0x0005#16) = "ADDI reg7,0x0005" := by decide

/-! ### Witnesses: states and operands that meet the hypotheses of the statements -/

theorem witness_RegisterOperandAccess : (5#8).toNat ≤ 5 ∧ 5 < (6#8).toNat ∧ 5 < (255#8).toNat ∧ (5#8 : Byte) ≠ 6#8 := by decide
theorem witness_UnknownOpcodeStep :
    let s := { State.reset with mem := [(0x0100, 0x07#8)] }
    let u := { State.reset with mem := [(0x0100, 0xFE#8)] }
    (s.halted = false ∧ readReady s s.pc = true ∧ illegalOpcode (byteAt s s.pc).toNat) ∧
    (u.halted = false ∧ readReady u u.pc = true ∧ illegalOpcode (byteAt u u.pc).toNat) := by
  unfold illegalOpcode; decide
theorem witness_UnknownOpcodeStep_port :
    let s := { State.reset with pc := 0xFF01#16, input := [0x52#8] }
    let u := { State.reset with pc := 0xFF03#16, timerValue := 0x120F#16 }
    (s.halted = false ∧ readReady s s.pc = true ∧ illegalOpcode (byteAt s s.pc).toNat) ∧
    (u.halted = false ∧ readReady u u.pc = true ∧ illegalOpcode (byteAt u u.pc).toNat) := by
  unfold illegalOpcode; decide
theorem witness_DecodeOfEncode : (Instr.add .pc (.invalid 15#8)).wellFormed = true ∧ (Instr.push (.invalid 255#8)).wellFormed = true := by decide
theorem witness_EncodeOfDecode : decode [0x24#8, 0xFF#8, 0x80#8, 0x00#8] = .ok (.shl (.invalid 0xFF#8) 0x80#8, [0x00#8]) := by decide
theorem witness_MemoryLaws : let m : Memory := [(0, 1#8), (0xFFFF, 2#8)]
    m.wf = true ∧ 0xFFFF < 0x10000 ∧ (0 : Nat) ≠ 0xFFFF := by decide
theorem witness_MemoryLaws_equal : let m : Memory := [(0, 1#8), (0xFFFF, 2#8)]
    let m' : Memory := Memory.write [(0xFFFF, 2#8)] 0 1#8
    m.wf = true ∧ m'.wf = true ∧ ∀ k, m.read k = m'.read k := ⟨by decide, by decide, fun _ => rfl⟩
theorem witness_TimerPortReads : ({ State.reset with timerEnabled := true } : State).timerEnabled = true ∧ State.reset.timerEnabled = false := by decide
theorem witness_PortWrites : (1#8).toNat ≠ 0 ∧ (255#8).toNat ≠ 0 ∧ (0#8).toNat = 0 := by decide
theorem witness_RamAccess : (0xFEFF#16 : Word) ≠ 0xFF00#16 ∧ (0xFEFF#16 : Word) ≠ 0xFF01#16 ∧ (0xFEFF#16 : Word) ≠ 0xFF02#16 ∧
    (0xFEFF#16 : Word) ≠ 0xFF03#16 := by decide
theorem witness_RamAccess_above : (0xFF04#16 : Word) ≠ 0xFF00#16 ∧ (0xFF04#16 : Word) ≠ 0xFF01#16 ∧ (0xFF04#16 : Word) ≠ 0xFF02#16 ∧
    (0xFF04#16 : Word) ≠ 0xFF03#16 := by decide
theorem witness_WordRoundTrip : (isPort 0xFFFF#16 = false ∧ isPort (0xFFFF#16 + 1#16) = false) ∧
    (isPort 0xFEFE#16 = false ∧ isPort (0xFEFE#16 + 1#16) = false) ∧
    (isPort 0xFF04#16 = false ∧ isPort (0xFF04#16 + 1#16) = false) := by decide
theorem witness_DivInstruction : (readReg (withAB 9#16 1#16) .b).toNat ≠ 0 ∧ (readReg (withAB 9#16 0xFFFF#16) .b).toNat ≠ 0 := by decide
theorem witness_DivideByZeroStops : (readReg (withAB 10#16 0#16) .b).toNat = 0 ∧ 6 ≤ (6#8).toNat ∧ 6 ≤ (255#8).toNat := by decide
theorem witness_DivideByZeroStops_only : ∃ t, exec (.div .a .b) (withAB 10#16 0#16) = .next t ∧ t.lastStep = .fatal .divideByZero 0x0100#16 := ⟨_, rfl, rfl⟩
theorem witness_CompareThenBranch : ∃ t, exec (.cmp .a .b) (withAB 3#16 5#16) = .next t := ⟨_, rfl⟩
theorem witness_LoadImmAndMov : 6 ≤ (6#8).toNat ∧ 6 ≤ (255#8).toNat := by decide
theorem witness_LoadMemInstruction : wordReady State.reset 0xFEFF#16 = true ∧ wordReady State.reset 0xFF02#16 = true ∧
    wordReady { State.reset with input := [1#8] } 0xFF01#16 = true ∧
    wordReady { State.reset with inputEnded := true } 0xFF00#16 = true := by decide
theorem witness_PopInstruction : wordReady State.reset State.reset.sp = true ∧
    (let s := { State.reset with sp := 0xFF01#16, input := [1#8] }
     wordReady s s.sp = true) := by decide
theorem witness_PushThenPop : ((Reg.d = .a ∨ Reg.d = .b ∨ Reg.d = .c ∨ Reg.d = .d)) ∧
    (let s := { State.reset with sp := 0xFF00#16 }
     isPort (s.sp - 2#16) = false ∧ isPort (s.sp - 1#16) = false) ∧
    (let s := { State.reset with sp := 0xFF06#16 }
     isPort (s.sp - 2#16) = false ∧ isPort (s.sp - 1#16) = false) := by decide
theorem witness_RetInstruction : wordReady State.reset State.reset.sp = true ∧
    (let s := { State.reset with sp := 0xFF00#16, inputEnded := true }
     wordReady s s.sp = true) := by decide
theorem witness_CallThenRet : (let s := { State.reset with sp := 0xFF00#16 }
     isPort (s.sp - 2#16) = false ∧ isPort (s.sp - 1#16) = false) ∧
    (let s := { State.reset with sp := 0xFF06#16 }
     isPort (s.sp - 2#16) = false ∧ isPort (s.sp - 1#16) = false) := by decide
theorem witness_InInstruction : readReady State.reset 0xFF00#16 = true ∧ readReady State.reset 0xFF02#16 = true ∧
    readReady { State.reset with input := [0#8] } 0xFF01#16 = true ∧
    readReady { State.reset with inputEnded := true } 0xFF01#16 = true := by decide
theorem witness_OutInstruction : (readReg (withAB 1#16 0#16) .a).toNat % 0x100 ≠ 0 ∧ (readReg (withAB 0x0100#16 0#16) .a).toNat % 0x100 = 0 ∧
    isPort 0xFEFF#16 = false ∧ isPort 0xFF04#16 = false := by decide
theorem witness_ReadsThatWait : wordReady State.reset 0xFF00#16 = false ∧ wordReady State.reset 0xFF01#16 = false ∧
    (let s := { State.reset with sp := 0xFF01#16 }
     wordReady s s.sp = false) ∧
    readReady State.reset 0xFF01#16 = false := by decide
/-- A HLT whose opcode is the low byte of the timer value before the tick. -/
theorem witness_StepRunsDecoded_opcode_at_port :
    let s := { State.reset with pc := 0xFF03#16, timerEnabled := true, timerValue := 0x00FF#16 }
    let s0 := { s with cursor := 0xFF04#16, timerValue := 0x0100#16 }
    s.halted = false ∧ readReady s s.pc = true ∧ ticked s = s0.timerValue ∧
    decode (byteAt s s.pc :: bytesFound s0 0xFF04#16 3) = .ok (.hlt, [0x00#8, 0x00#8, 0x00#8]) ∧
    bytesReady s0 0xFF04#16 0 = true := by decide
/-- A LOAD whose three operand bytes come from STDOUT, STDIN and the timer control. -/
theorem witness_StepRunsDecoded_operands_at_ports :
    let s := { State.reset with pc := 0xFEFF#16, mem := [(0xFEFF, 0x01#8)], input := [0x34#8], timerEnabled := true }
    let s0 := { s with cursor := 0xFF00#16, timerValue := 1#16 }
    s.halted = false ∧ readReady s s.pc = true ∧ ticked s = s0.timerValue ∧
    decode (byteAt s s.pc :: bytesFound s0 0xFF00#16 3) = .ok (.loadImm .a 0x0134#16, []) ∧
    bytesReady s0 0xFF00#16 3 = true ∧ inputAfterBytes s0 0xFF00#16 3 = [] := by decide
/-- The opcode, or an operand, waits. -/
theorem witness_StepRunsDecoded_fetch_waits :
    let s := { State.reset with pc := 0xFF01#16 }
    let u := { State.reset with pc := 0xFEFF#16, mem := [(0xFEFF, 0x01#8)] }
    (s.halted = false ∧ readReady s s.pc = false) ∧ u.halted = false ∧ readReady u u.pc = true ∧
    bytesReady { u with cursor := 0xFF00#16 } 0xFF00#16 3 = false ∧
    decode (byteAt u u.pc :: bytesFound { u with cursor := 0xFF00#16 } 0xFF00#16 3) = .ok (.loadImm .a 0#16, []) := by decide
theorem witness_StepRunsDecoded :
    let s := { State.reset with pc := 0xFEFC#16, mem := [(0xFEFC, 0x01#8), (0xFEFE, 0x34#8)] }
    s.halted = false ∧ decode (bytesAt s s.pc 4) = .ok (.loadImm .a 0x0034#16, []) ∧ noPortIn s.pc 4 = true ∧
    ∃ t, exec (.loadImm .a 0x0034#16) { s with cursor := 0xFF00#16 } = .next t ∧ t.lastStep ≠ .waiting :=
  ⟨rfl, by decide, by decide, _, rfl, by decide⟩
theorem witness_StepRunsDecoded_waits :
    let s := { State.reset with mem := [(0x0100, 0x50#8), (0x0102, 0x01#8), (0x0103, 0xFF#8)] }
    s.halted = false ∧ decode (bytesAt s s.pc 4) = .ok (.inPort .a 0xFF01#16, []) ∧ noPortIn s.pc 4 = true ∧
    ∃ t, exec (.inPort .a 0xFF01#16) { s with cursor := 0x0104#16 } = .next t ∧ t.lastStep = .waiting :=
  ⟨rfl, by decide, by decide, _, rfl, by decide⟩
theorem witness_HaltedStepDoesNothing : ({ State.reset with halted := true } : State).halted = true := by decide
theorem witness_FetchTicksOnce : ∃ i s1, fetch State.reset = .fetched i s1 := ⟨_, _, rfl⟩
theorem witness_FetchTicksOnce_unknown : ∃ s1, fetch { State.reset with mem := [(0x0100, 0xFE#8)] } = .unknown s1 := ⟨_, rfl⟩
theorem witness_Inv : Inv State.reset :=
  ⟨by decide, by decide, by decide, by intro kind pc0 h; simp [State.reset] at h⟩
theorem witness_StepKeepsInv : Inv State.reset ∧ ∃ t, step State.reset = .next t := ⟨witness_Inv, _, rfl⟩
theorem witness_step_answers : ∃ t, step (withAB 1#16 2#16) = .next t ∧ t.lastStep = .executed ∧ t.halted = false := ⟨_, rfl, rfl, rfl⟩
theorem witness_StepKeepsReservedFlags : ∃ t, step { State.reset with flags := 0xFF#8 } = .next t := ⟨_, rfl⟩
theorem witness_PortCellsUntouched : ∃ t, step { State.reset with mem := [(0xFF00, 7#8)] } = .next t ∧ 0xFF00 ≤ 0xFF00 ∧ 0xFF03 ≤ 0xFF03 := ⟨_, rfl, by decide, by decide⟩
theorem witness_CyclesCountCompleted : ∃ t, step { State.reset with cycles := 0xFFFFFFFFFFFFFFFF#64 } = .next t := ⟨_, rfl⟩
theorem witness_StreamsAreStreams : ∃ t, step { State.reset with input := [1#8], output := [2#8] } = .next t := ⟨_, rfl⟩
theorem witness_WhatHaltsTheCore : ∃ t, exec .hlt { State.reset with running := true } = .next t ∧ t.halted = true := ⟨_, rfl, rfl⟩
theorem witness_WhatHaltsTheCore_runs : ∃ t, step { State.reset with running := true } = .next t ∧ t.running = true ∧ t.halted = false := ⟨_, rfl, rfl, rfl⟩
theorem witness_WhatHaltsTheCore_stays : ∃ t, step { State.reset with halted := true } = .next t ∧ t.halted = true := ⟨_, rfl, rfl⟩
theorem witness_WaitingStepResumes :
    let s := { State.reset with pc := 0xFF01#16 }
    ∃ t, step s = .next t ∧ t.lastStep = .waiting ∧ s.input.length ≤ 1 := ⟨_, rfl, by decide, by decide⟩
theorem witness_WaitingStepResumes_goes_on : 2 ≤ ({ State.reset with input := [1#8, 2#8] } : State).input.length ∧
    ({ State.reset with inputEnded := true } : State).inputEnded = true := by decide
theorem witness_PlacedWordRuns : decodeTableWord 8 0xFF = some .hlt ∧ decodeTableWord 8 0x40 = some (.jmp 0#16) ∧
    decodeTableWord 32 0xFFFFFF51 = some (.outPort 0xFFFF#16 (.invalid 0xFF#8)) := by decide
theorem witness_OnlyTransfersRedirect : ∃ t, exec (.loadImm .pc 0x1234#16) State.reset = .next t ∧ Instr.loadImm .pc 0x1234#16 ≠ .hlt ∧
    t.lastStep = .executed ∧ transfers (.loadImm .pc 0x1234#16) = false := ⟨_, rfl, by decide, by decide, by decide⟩
theorem witness_RegisterFrame : ∃ t, exec (.div .a .b) (withAB 9#16 2#16) = .next t ∧ writesReg (.div .a .b) .sp = false ∧ Reg.sp ≠ .pc := ⟨_, rfl, by decide, by decide⟩
theorem witness_MemoryAndFlagsFrame : ∃ t, exec (.cmp .a .b) State.reset = .next t ∧ storesBytes (.cmp .a .b) = false := ⟨_, rfl, by decide⟩
theorem witness_MemoryAndFlagsFrame_flags : ∃ t, exec (.push .a) State.reset = .next t ∧ writesFlags (.push .a) = false := ⟨_, rfl, by decide⟩
theorem witness_LoadProgramCopies : 0x10000 < (0xFFFF#16).toNat + [1#8, 2#8].length ∧ (0xFFFF#16).toNat + [1#8].length ≤ 0x10000 ∧
    0 < [1#8].length ∧ 0xFFFE < (0xFFFF#16).toNat := by decide
theorem witness_RunAgainStopsAgain :
    let s := { State.reset with halted := true, mem := [(0x0100, 0xFF#8)] }
    s.halted = true ∧ s.mem.read s.pc.toNat = 0xFF#8 ∧ isPort s.pc = false := by decide
theorem witness_RunAgainStopsAgain_div :
    let s := { State.reset with halted := true, mem := [(0x0100, 0x15#8), (0x0101, 0x01#8)] }
    s.halted = true ∧ decode (bytesAt s s.pc 2) = .ok (.div .a .b, []) ∧ noPortIn s.pc 2 = true ∧
    readReg s .b = 0#16 := by decide

end Sys2Proof.Tests
end

/-! ## Register operands (spec/00_scope.md R5)

A `reg` byte names one of the six registers when it is at most 5 and no register otherwise. The state lemmas of
Laws/Ops.lean speak of `Reg`; the lemmas here carry them over to the index byte. -/

namespace Sys2Proof.Machine

/-- Distinct index bytes name distinct operands: an index above 5 is kept inside `invalid`. -/
theorem ofByte_injective : Function.Injective Reg.ofByte :=
  Function.LeftInverse.injective index_ofByte

/-- An index up to 5 names a register. -/
theorem ofByte_ne_invalid {n : Byte} (h : n.toNat ≤ 5) (i : Byte) : Reg.ofByte n ≠ .invalid i := by
  intro hinvalid
  have hindex : i = n := by simpa [hinvalid, Reg.index] using index_ofByte n
  have hwf : 6 ≤ i.toNat := by simpa [hinvalid, Reg.wellFormedByte] using wellFormedByte_ofByte n
  rw [hindex] at hwf
  omega

/-- The table of R5: what each index byte reads. -/
theorem readReg_ofByte (s : State) (n : Byte) :
    readReg s (Reg.ofByte n) =
      if n.toNat = 0 then s.a else if n.toNat = 1 then s.b else if n.toNat = 2 then s.c else if n.toNat = 3 then s.d
        else if n.toNat = 4 then s.sp else if n.toNat = 5 then s.pc else 0x0000#16 := by
  by_cases hge : 6 ≤ n.toNat
  · rw [ofByte_of_ge n hge, readReg]
    simp (disch := omega) only [if_neg]
  · unfold Reg.ofByte
    interval_cases n.toNat <;> rfl

/-- R5: a write to an index above 5 does nothing. -/
theorem writeReg_ofByte_of_gt (s : State) {n : Byte} (v : Word) (h : 5 < n.toNat) :
    writeReg s (Reg.ofByte n) v = s := by
  rw [ofByte_of_ge n h, writeReg]

/-- Settles O1: the table of reads, then each clause on writes from the rule that `writeReg` has for a `Reg`. -/
theorem registerOperandAccess : Obligations.RegisterOperandAccess := by
  unfold Obligations.RegisterOperandAccess
  intro n v s
  refine ⟨readReg_ofByte s n, ?readBack, writeReg_ofByte_of_gt s v, ?others, writeReg_frame s _ v⟩
  case readBack => exact fun hle => readReg_writeReg_same s _ v (ofByte_ne_invalid hle)
  case others => exact fun m hne => readReg_writeReg_other s v (ofByte_injective.ne hne)

end Sys2Proof.Machine

/-! ## The memory array (spec/10_state.md R28)

In canonical form a cell never holds the byte that an unlisted address reads as, and the addresses rise; so what a memory
reads as determines its list of cells. -/

namespace Sys2Proof.Machine

/-- Below all the cells of a memory nothing is written. -/
theorem Memory.read_of_lt {m : Memory} {n : Nat} (h : ∀ cell ∈ m, n < cell.1) : m.read n = unwrittenByte := by
  induction m with
  | nil => rfl
  | cons cell m ih =>
    obtain ⟨hcell, hm⟩ := List.forall_mem_cons.1 h
    rw [Memory.read_cons, if_neg (Nat.ne_of_gt hcell), ih hm]

/-- When two canonical memories read alike, the first cell of one is not below all the cells of the other. -/
theorem Memory.head_le_of_read_eq {cell cell' : Host.Cell} {m m' : Memory} (h : Memory.wf (cell :: m) = true)
    (h' : Memory.wf (cell' :: m') = true) (hread : ∀ k, Memory.read (cell :: m) k = Memory.read (cell' :: m') k) :
    cell'.1 ≤ cell.1 := by
  by_contra hlt
  obtain ⟨-, hwritten, -, -⟩ := (Memory.wf_cons _ _).1 h
  obtain ⟨-, -, hrise, -⟩ := (Memory.wf_cons _ _).1 h'
  have hbelow : ∀ next ∈ cell' :: m', cell.1 < next.1 :=
    List.forall_mem_cons.2 ⟨by omega, fun next hn => (Nat.lt_of_not_le hlt).trans (hrise next hn)⟩
  have hhead : Memory.read (cell :: m) cell.1 = cell.2 := by rw [Memory.read_cons, if_pos rfl]
  exact hwritten (hhead ▸ (hread cell.1).trans (Memory.read_of_lt hbelow))

/-- A canonical memory with a cell does not read as the empty memory does. -/
theorem Memory.read_cons_ne_nil {cell : Host.Cell} {m : Memory} (h : Memory.wf (cell :: m) = true) :
    Memory.read (cell :: m) cell.1 ≠ Memory.read [] cell.1 := by
  obtain ⟨-, hwritten, -, -⟩ := (Memory.wf_cons _ _).1 h
  rwa [Memory.read_cons, if_pos rfl]

/-- Two memories in canonical form that read alike at every address are equal. -/
theorem Memory.eq_of_read_eq {m m' : Memory} (h : m.wf = true) (h' : m'.wf = true)
    (hread : ∀ k, m.read k = m'.read k) : m = m' := by
  induction m generalizing m' with
  | nil =>
    cases m' with
    | nil => rfl
    | cons cell' m' => exact absurd (hread cell'.1).symm (Memory.read_cons_ne_nil h')
  | cons cell m ih =>
    cases m' with
    | nil => exact absurd (hread cell.1) (Memory.read_cons_ne_nil h)
    | cons cell' m' =>
      obtain ⟨-, -, hrise, hm⟩ := (Memory.wf_cons _ _).1 h
      obtain ⟨-, -, hrise', hm'⟩ := (Memory.wf_cons _ _).1 h'
      have haddr : cell.1 = cell'.1 :=
        Nat.le_antisymm (Memory.head_le_of_read_eq h' h fun k => (hread k).symm) (Memory.head_le_of_read_eq h h' hread)
      have hbyte : cell.2 = cell'.2 := by
        simpa [Memory.read_cons, haddr] using hread cell.1
      have htail : ∀ k, Memory.read m k = Memory.read m' k := by
        intro k
        by_cases hk : cell.1 = k
        · subst hk
          rw [Memory.read_of_lt hrise, Memory.read_of_lt (haddr ▸ hrise')]
        · simpa [Memory.read_cons, hk, haddr ▸ hk] using hread k
      rw [Prod.ext haddr hbyte, ih hm hm' htail]

/-- Settles O8: the laws of `Memory.write`, and extensionality of the canonical form. -/
theorem memoryLaws : Obligations.MemoryLaws := by
  unfold Obligations.MemoryLaws
  intro m n v
  exact ⟨Memory.read_write_same m n v, fun k hne => Memory.read_write_other m v hne, Memory.wf_write m n v,
    fun m' => Memory.eq_of_read_eq⟩

end Sys2Proof.Machine

/-! ## How a step ends, seen from the state it began in (spec/40_execution_cycle.md R131, R135 to R140)

`step_cases` names the state in which the fetched instruction executes. A fetch moves the cursor, ticks the timer and
consumes input, and nothing else; so the ends of a step can be said of the state at its start. -/

namespace Sys2Proof.Machine

/-- The state after a fetch that began in `s` (R131 to R134). -/
def afterFetch (s : State) (cursor : Word) (input : List Byte) : State :=
  { s with cursor := cursor, timerValue := ticked s, input := input }

section
variable (s : State) (cursor : Word) (input : List Byte)

@[simp] theorem afterFetch_pc : (afterFetch s cursor input).pc = s.pc := rfl
@[simp] theorem afterFetch_flags : (afterFetch s cursor input).flags = s.flags := rfl
@[simp] theorem afterFetch_mem : (afterFetch s cursor input).mem = s.mem := rfl
@[simp] theorem afterFetch_halted : (afterFetch s cursor input).halted = s.halted := rfl
@[simp] theorem afterFetch_running : (afterFetch s cursor input).running = s.running := rfl
@[simp] theorem afterFetch_cycles : (afterFetch s cursor input).cycles = s.cycles := rfl

end

/-- A fetched instruction executes in a state that the fetch alone has changed. -/
theorem afterFetch_of_fetched {s s1 : State} {i : Instr} (h : fetch s = .fetched i s1) :
    ∃ cursor input, s1 = afterFetch s cursor input := by
  rw [fetch_eq] at h
  split at h
  case isFalse => cases h
  split at h
  case h_1 => cases h
  case h_2 sh _ =>
    unfold fetchOperands at h
    split at h
    case h_1 => cases h
    case h_2 ops s2 hops =>
      cases h
      obtain ⟨-, heq, -⟩ := fetchBytes_spec _ _ _ _ hops
      exact ⟨_, _, heq⟩

/-- An illegal opcode is met in a state that the fetch alone has changed. -/
theorem afterFetch_of_unknown {s s1 : State} (h : fetch s = .unknown s1) :
    ∃ cursor input, s1 = afterFetch s cursor input := by
  rw [fetch_eq] at h
  split at h
  case isFalse => cases h
  split at h
  case h_1 => cases h; exact ⟨_, _, rfl⟩
  case h_2 sh _ =>
    unfold fetchOperands at h
    split at h <;> cases h

/-- How a step that began in `s` can end: on a halted core; with a wait, which changes nothing; with a runtime error; with
HLT; or with the writeback of what an execution touched. -/
inductive StepEnds (s : State) : State → Prop where
  | alreadyHalted (hs : s.halted = true) : StepEnds s (alreadyHalted s)
  | waits (hs : s.halted = false) : StepEnds s (awaitInput s)
  | fatal (kind : RuntimeError) (cursor : Word) (input : List Byte) (hs : s.halted = false) :
      StepEnds s (raiseFatal kind (afterFetch s cursor input))
  | halts (cursor : Word) (input : List Byte) (hs : s.halted = false) : StepEnds s (halt (afterFetch s cursor input))
  | retires (cursor : Word) (input : List Byte) (u : State) (hs : s.halted = false)
      (hu : Touched (afterFetch s cursor input) u) : StepEnds s (retire u)

/-- The end of an execution, as the end of the step that fetched the instruction. -/
theorem StepEnds.of_ends {s t : State} {cursor : Word} {input : List Byte} {i : Instr} (hs : s.halted = false)
    (he : Ends i (afterFetch s cursor input) t) (hl : t.lastStep ≠ .waiting) : StepEnds s t := by
  cases he with
  | waits => exact absurd (State.awaitInput_lastStep _) hl
  | divideByZero => exact .fatal _ cursor input hs
  | halts => exact .halts cursor input hs
  | retires u hu => exact .retires cursor input u hs hu

/-- Every step ends in one of these ways. -/
theorem step_ends {s t : State} (h : step s = .next t) : StepEnds s t := by
  rcases step_cases s t h with ⟨hs, rfl⟩ | ⟨hs, -, rfl⟩ | ⟨s1, hs, hf, rfl⟩ | ⟨i, s1, hs, -, -, -, rfl⟩ |
    ⟨i, s1, hs, hf, -, he, hl⟩
  · exact .alreadyHalted hs
  · exact .waits hs
  · obtain ⟨cursor, input, rfl⟩ := afterFetch_of_unknown hf
    exact .fatal _ cursor input hs
  · exact .waits hs
  · obtain ⟨cursor, input, rfl⟩ := afterFetch_of_fetched hf
    exact .of_ends hs he hl

end Sys2Proof.Machine

/-! ## What every step keeps (spec/10_state.md R26 to R31, R34) -/

namespace Sys2Proof.Machine

/-! ### The invariant -/

/-- R306: only `halted` and `running` at once spell no run state. -/
theorem runState_ne_none_iff (s : State) : runState s ≠ none ↔ ¬(s.halted = true ∧ s.running = true) := by
  unfold runState
  cases s.halted <;> cases s.running <;> simp

/-- The invariant does not see the outcome of the last step, unless that is a runtime error. -/
theorem Inv.setLastStep {s : State} (hs : Inv s) {outcome : StepStatus} (ho : ∀ kind pc0, outcome ≠ .fatal kind pc0) :
    Inv { s with lastStep := outcome } where
  memory := hs.memory
  reservedFlags := hs.reservedFlags
  oneRunState := hs.oneRunState
  fatalHalts kind pc0 h := absurd h (ho kind pc0)

theorem Inv.afterFetch {s : State} (hs : Inv s) (hh : s.halted = false) (cursor : Word) (input : List Byte) :
    Inv (afterFetch s cursor input) where
  memory := hs.memory
  reservedFlags := hs.reservedFlags
  oneRunState := hs.oneRunState
  fatalHalts kind pc0 h := absurd (hs.fatalHalts kind pc0 h).1 (by simp [hh])

theorem Inv.raiseFatal {s : State} (hs : Inv s) (kind : RuntimeError) : Inv (raiseFatal kind s) where
  memory := hs.memory
  reservedFlags := hs.reservedFlags
  oneRunState := by simp [runState_ne_none_iff]
  fatalHalts kind' pc0 h := by cases h; exact ⟨rfl, rfl⟩

theorem Inv.halt {s : State} (hs : Inv s) : Inv (halt s) where
  memory := hs.memory
  reservedFlags := hs.reservedFlags
  oneRunState := by simp [runState_ne_none_iff]
  fatalHalts kind pc0 h := by simp at h

/-- The writeback of an execution keeps the invariant: `Touched` holds what the execution itself keeps. -/
theorem Inv.retire {s u : State} (hs : Inv s) (hu : Touched s u) : Inv (retire u) where
  memory := hu.memoryWf hs.memory
  reservedFlags := hu.reserved.trans hs.reservedFlags
  oneRunState := by
    have hrun := (runState_ne_none_iff s).1 hs.oneRunState
    simpa [runState_ne_none_iff, hu.halted, hu.running] using hrun
  fatalHalts kind pc0 h := by simp at h

/-- Settles O47: each way a step can end keeps the invariant. -/
theorem stepKeepsInv : Obligations.StepKeepsInv := by
  unfold Obligations.StepKeepsInv
  intro s t hs h
  cases step_ends h with
  | alreadyHalted => exact hs.setLastStep (by simp)
  | waits => exact hs.setLastStep (by simp)
  | fatal kind cursor input hh => exact (hs.afterFetch hh cursor input).raiseFatal kind
  | halts cursor input hh => exact (hs.afterFetch hh cursor input).halt
  | retires cursor input u hh hu => exact (hs.afterFetch hh cursor input).retire hu

/-- Settles O46: reset memory is canonical, `F` is 0, `halted` is false and no step has been taken. -/
theorem resetHasInv : Obligations.ResetHasInv := by
  unfold Obligations.ResetHasInv
  exact
    { memory := Memory.wf_reset
      reservedFlags := rfl
      oneRunState := nofun
      fatalHalts := nofun }

/-- Settles O7: `hostReset` is by definition the reset state with the host streams put back. -/
theorem resetValues : Obligations.ResetValues := by
  unfold Obligations.ResetValues
  exact ⟨rfl, rfl, rfl, rfl, rfl, rfl, rfl, fun _ => rfl, rfl, rfl, rfl, rfl, rfl, fun _ => ⟨rfl, rfl, rfl, rfl⟩⟩

/-! ### The reserved flag bits, the count of instructions, the run flags -/

/-- Settles O48: only an execution writes `F`, and it keeps the reserved bits. -/
theorem stepKeepsReservedFlags : Obligations.StepKeepsReservedFlags := by
  unfold Obligations.StepKeepsReservedFlags
  intro s t h
  cases step_ends h with
  | alreadyHalted => rfl
  | waits => rfl
  | fatal => rfl
  | halts => rfl
  | retires cursor input u hh hu => exact hu.reserved

/-- Settles O50: only the writeback counts, and only it ends with `executed` on a core that is not halted. -/
theorem cyclesCountCompleted : Obligations.CyclesCountCompleted := by
  unfold Obligations.CyclesCountCompleted
  intro s t h
  cases step_ends h with
  | alreadyHalted => simp
  | waits => simp
  | fatal => simp
  | halts => simp
  | retires cursor input u hh hu => simp [hu.cycles, hu.halted, hh]

/-- R30: no step sets `running`. -/
theorem running_of_step {s t : State} (h : step s = .next t) (ht : t.running = true) : s.running = true := by
  cases step_ends h with
  | alreadyHalted => exact ht
  | waits => exact ht
  | fatal => simp at ht
  | halts => simp at ht
  | retires cursor input u hh hu => exact hu.running.symm.trans ht

/-- R29, R140: no step clears `halted`. -/
theorem halted_of_step {s t : State} (h : step s = .next t) (hs : s.halted = true) : t.halted = true := by
  cases step_ends h with
  | alreadyHalted => exact hs
  | waits hh | fatal _ _ _ hh | halts _ _ hh | retires _ _ _ hh => simp [hs] at hh

/-- The inversion of `exec`, for an execution at hand. -/
theorem ends_of_exec {i : Instr} {s t : State} (h : exec i s = .next t) : Ends i s t := by
  obtain ⟨u, hu, he⟩ := exec_ends i s
  rw [hu] at h
  cases h
  exact he

/-- HLT (R252). -/
theorem exec_hlt (s : State) : exec .hlt s = .next (halt s) := rfl

/-- DIV by zero (R271). -/
theorem exec_div_zero {rd rs : Reg} {s : State} (h : readReg s rs = 0#16) :
    exec (.div rd rs) s = .next (raiseFatal .divideByZero s) := by
  simp [exec, execDiv, h]

/-- R34: an execution on a core that is not halted halts it by HLT or a DIV by zero. -/
theorem halted_iff_of_exec {i : Instr} {s t : State} (h : exec i s = .next t) (hs : s.halted = false) :
    t.halted = true ↔ i = .hlt ∨ ∃ rd rs, i = .div rd rs ∧ readReg s rs = 0#16 := by
  constructor
  · intro ht
    cases ends_of_exec h with
    | waits => simp [hs] at ht
    | divideByZero rd rs hi hz => exact .inr ⟨rd, rs, hi, hz⟩
    | halts hi => exact .inl hi
    | retires u hu => simp [hu.halted, hs] at ht
  · rintro (rfl | ⟨rd, rs, rfl, hz⟩)
    · rw [exec_hlt] at h
      cases h
      rfl
    · rw [exec_div_zero hz] at h
      cases h
      rfl

/-- R135, R136: what halts the core clears `running`, and nothing else touches it. -/
theorem running_of_exec {i : Instr} {s t : State} (h : exec i s = .next t) (hs : s.halted = false) :
    t.running = if t.halted then false else s.running := by
  cases ends_of_exec h with
  | waits => simp [hs]
  | divideByZero => simp
  | halts => simp
  | retires u hu => simp [hu.halted, hu.running, hs]

/-- Settles O52: the step's half from the ends of a step, the execution's half from the ends of an execution. -/
theorem whatHaltsTheCore : Obligations.WhatHaltsTheCore := by
  unfold Obligations.WhatHaltsTheCore
  refine ⟨fun s t h => ⟨running_of_step h, halted_of_step h⟩, fun i s t h hs => ⟨halted_iff_of_exec h hs, ?_, ?_⟩⟩
  · intro ht; simp [running_of_exec h hs, ht]
  · intro ht; simp [running_of_exec h hs, ht]

end Sys2Proof.Machine

/-! ## Frames: memory, output, timer and flags (spec/10_state.md R27, spec/20_memory.md R61) -/

namespace Sys2Proof.Machine

/-! ### Instructions that do not store -/

/-- Memory, the output and the timer are as they were. -/
structure MemoryKept (s t : State) : Prop where
  mem : t.mem = s.mem
  output : t.output = s.output
  timerEnabled : t.timerEnabled = s.timerEnabled
  timerValue : t.timerValue = s.timerValue

namespace MemoryKept

variable {s t : State}

theorem refl (s : State) : MemoryKept s s := ⟨rfl, rfl, rfl, rfl⟩

theorem writeReg (h : MemoryKept s t) (r : Reg) (v : Word) : MemoryKept s (writeReg t r v) :=
  ⟨by simp [h.mem], by simp [h.output], by simp [h.timerEnabled], by simp [h.timerValue]⟩

theorem setFlags (h : MemoryKept s t) (r : Alu) : MemoryKept s (setFlags t r) :=
  ⟨h.mem, h.output, h.timerEnabled, h.timerValue⟩

theorem jumpTo (h : MemoryKept s t) (target : Word) : MemoryKept s (jumpTo t target) :=
  ⟨h.mem, h.output, h.timerEnabled, h.timerValue⟩

theorem retire (h : MemoryKept s t) : MemoryKept s (retire t) :=
  ⟨h.mem, h.output, h.timerEnabled, h.timerValue⟩

theorem awaitInput (h : MemoryKept s t) : MemoryKept s (awaitInput t) :=
  ⟨h.mem, h.output, h.timerEnabled, h.timerValue⟩

theorem halt (h : MemoryKept s t) : MemoryKept s (halt t) :=
  ⟨h.mem, h.output, h.timerEnabled, h.timerValue⟩

theorem raiseFatal (h : MemoryKept s t) (kind : RuntimeError) : MemoryKept s (raiseFatal kind t) :=
  ⟨h.mem, h.output, h.timerEnabled, h.timerValue⟩

end MemoryKept

/-! ### Reads consume input, and change neither memory nor flags (R61) -/

section
variable {s s1 : State}

theorem readByte_frame {addr : Word} {v : Byte} (h : readByte s addr = some (v, s1)) :
    MemoryKept s s1 ∧ s1.flags = s.flags := by
  rw [readByte_eq] at h
  split at h
  case isTrue => cases h; exact ⟨⟨rfl, rfl, rfl, rfl⟩, rfl⟩
  case isFalse => cases h

theorem readWord_frame {addr v : Word} (h : readWord s addr = some (v, s1)) :
    MemoryKept s s1 ∧ s1.flags = s.flags := by
  rw [readWord_eq] at h
  split at h
  case isTrue => cases h; exact ⟨⟨rfl, rfl, rfl, rfl⟩, rfl⟩
  case isFalse => cases h

theorem pop_frame {v : Word} (h : pop s = some (v, s1)) : MemoryKept s s1 ∧ s1.flags = s.flags := by
  rw [pop_eq] at h
  split at h
  case isTrue => cases h; exact ⟨⟨rfl, rfl, rfl, rfl⟩, rfl⟩
  case isFalse => cases h

end

/-! ### The instructions of one shape, and those that end in more than one way -/

section
variable {s t : State}

theorem retireAlu_memory {rd : Reg} {r : Alu} (h : retireAlu s rd r = .next t) : MemoryKept s t := by
  cases h
  exact (((MemoryKept.refl s).setFlags r).writeReg rd r.value).retire

theorem retireCompare_memory {r : Alu} (h : retireCompare s r = .next t) : MemoryKept s t := by
  cases h
  exact ((MemoryKept.refl s).setFlags r).retire

theorem retireJump_frame {taken : Bool} {addr : Word} (h : retireJump s taken addr = .next t) :
    MemoryKept s t ∧ t.flags = s.flags := by
  cases h
  cases taken with
  | false => exact ⟨(MemoryKept.refl s).retire, rfl⟩
  | true => exact ⟨((MemoryKept.refl s).jumpTo addr).retire, rfl⟩

theorem execDiv_memory {rd rs : Reg} (h : execDiv rd rs s = .next t) : MemoryKept s t := by
  simp only [execDiv] at h
  split at h
  case isTrue => cases h; exact (MemoryKept.refl s).raiseFatal .divideByZero
  case isFalse =>
    cases h
    exact ((((MemoryKept.refl s).setFlags _).writeReg rd _).writeReg rs _).retire

theorem execLoadMem_frame {r : Reg} {addr : Word} (h : execLoadMem r addr s = .next t) :
    MemoryKept s t ∧ t.flags = s.flags := by
  unfold execLoadMem at h
  split at h
  case h_1 => cases h; exact ⟨(MemoryKept.refl s).awaitInput, rfl⟩
  case h_2 v s1 hread =>
    obtain ⟨hmem, hflags⟩ := readWord_frame hread
    cases h
    exact ⟨(hmem.writeReg r v).retire, by simp [hflags]⟩

theorem execPop_frame {r : Reg} (h : execPop r s = .next t) : MemoryKept s t ∧ t.flags = s.flags := by
  unfold execPop at h
  split at h
  case h_1 => cases h; exact ⟨(MemoryKept.refl s).awaitInput, rfl⟩
  case h_2 v s1 hpop =>
    obtain ⟨hmem, hflags⟩ := pop_frame hpop
    cases h
    exact ⟨(hmem.writeReg r v).retire, by simp [hflags]⟩

theorem execRet_frame (h : execRet s = .next t) : MemoryKept s t ∧ t.flags = s.flags := by
  unfold execRet at h
  split at h
  case h_1 => cases h; exact ⟨(MemoryKept.refl s).awaitInput, rfl⟩
  case h_2 v s1 hpop =>
    obtain ⟨hmem, hflags⟩ := pop_frame hpop
    cases h
    exact ⟨(hmem.jumpTo v).retire, by simp [hflags]⟩

theorem execIn_frame {r : Reg} {port : Word} (h : execIn r port s = .next t) :
    MemoryKept s t ∧ t.flags = s.flags := by
  unfold execIn at h
  split at h
  case h_1 => cases h; exact ⟨(MemoryKept.refl s).awaitInput, rfl⟩
  case h_2 v s1 hread =>
    obtain ⟨hmem, hflags⟩ := readByte_frame hread
    cases h
    exact ⟨(hmem.writeReg r (zextByte v)).retire, by simp [hflags]⟩

/-! ### Every instruction -/

/-- R61: an instruction that does not store leaves memory, the output and the timer. -/
theorem exec_memory {i : Instr} (h : exec i s = .next t) (hi : storesBytes i = false) : MemoryKept s t := by
  cases i with
  | nop => cases h; exact (MemoryKept.refl s).retire
  | loadImm r imm => cases h; exact ((MemoryKept.refl s).writeReg r imm).retire
  | mov rd rs => cases h; exact ((MemoryKept.refl s).writeReg rd _).retire
  | loadMem => exact (execLoadMem_frame h).1
  | pop => exact (execPop_frame h).1
  | ret => exact (execRet_frame h).1
  | inPort => exact (execIn_frame h).1
  | add | addi | sub | subi | mul | inc | dec | and | or | xor | not | shl | shr => exact retireAlu_memory h
  | div => exact execDiv_memory h
  | cmp | cmpi => exact retireCompare_memory h
  | jmp | jz | jnz | jc | jnc => exact (retireJump_frame h).1
  | hlt => cases h; exact (MemoryKept.refl s).halt
  | store | push | call | outPort => cases hi

/-! ### Instructions that write no flags -/

@[simp] theorem writeByte_flags (s : State) (addr : Word) (v : Byte) : (writeByte s addr v).flags = s.flags := by
  rw [writeByte_eq]

@[simp] theorem writeWord_flags (s : State) (addr v : Word) : (writeWord s addr v).flags = s.flags := by
  simp [writeWord]

@[simp] theorem push_flags (s : State) (v : Word) : (push s v).flags = s.flags := by
  simp [push]

/-- R27: an instruction that is not listed as writing flags leaves `F`. -/
theorem exec_flags {i : Instr} (h : exec i s = .next t) (hi : writesFlags i = false) : t.flags = s.flags := by
  cases i with
  | nop | hlt => cases h; rfl
  | loadImm | mov => cases h; exact State.writeReg_flags s _ _
  | store => cases h; exact writeWord_flags s _ _
  | push | call => cases h; exact push_flags s _
  | outPort => cases h; exact writeByte_flags s _ _
  | loadMem => exact (execLoadMem_frame h).2
  | pop => exact (execPop_frame h).2
  | ret => exact (execRet_frame h).2
  | inPort => exact (execIn_frame h).2
  | jmp | jz | jnz | jc | jnc => exact (retireJump_frame h).2
  | add | addi | sub | subi | mul | div | inc | dec | and | or | xor | not | shl | shr | cmp | cmpi => cases hi

end

/-- Settles O57: equal memories read alike; the rest is `exec_memory` and `exec_flags`. -/
theorem memoryAndFlagsFrame : Obligations.MemoryAndFlagsFrame := by
  unfold Obligations.MemoryAndFlagsFrame
  intro i s t h
  refine ⟨fun hi => ?_, exec_flags h⟩
  obtain ⟨hmem, houtput, henabled, hvalue⟩ := exec_memory h hi
  exact ⟨fun n => by rw [hmem], houtput, henabled, hvalue⟩

end Sys2Proof.Machine

/-! ## The memory interface away from the ports and at each of them (spec/20_memory.md R52 to R59, R62 to R72) -/

namespace Sys2Proof.Machine

/-! ### Addresses that are no port -/

theorem isPort_eq_false {addr : Word} (h0 : addr ≠ 0xFF00#16) (h1 : addr ≠ 0xFF01#16) (h2 : addr ≠ 0xFF02#16)
    (h3 : addr ≠ 0xFF03#16) : isPort addr = false := by
  simp [← Bool.not_eq_true, isPort_iff, h0, h1, h2, h3]

/-- R55: a read away from the ports is a read of the array. -/
theorem readByte_ram (s : State) {addr : Word} (h : isPort addr = false) :
    readByte s addr = some (s.mem.read addr.toNat, s) := by
  obtain ⟨hready, hbyte, hinput⟩ := read_ram s addr h
  rw [readByte_eq, if_pos hready, hbyte, hinput]

/-- R56: a write away from the ports is a write of the array. -/
theorem writeByte_ram (s : State) {addr : Word} (v : Byte) (h : isPort addr = false) :
    writeByte s addr v = { s with mem := s.mem.write addr.toNat v } := by
  have hport : ¬ isPort addr = true := by simp [h]
  have hno := hport
  simp only [isPort_iff, not_or] at hno
  obtain ⟨h0, -, h2, h3⟩ := hno
  rw [writeByte_eq, if_neg hport, if_neg h0, if_neg h2, if_neg h2, if_neg h3]

/-- Settles O12: off the ports the interface is the array, whose laws say the rest. -/
theorem ramAccess : Obligations.RamAccess := by
  unfold Obligations.RamAccess
  intro s addr v h0 h1 h2 h3
  have hram := isPort_eq_false h0 h1 h2 h3
  rw [readByte_ram s hram, readByte_ram _ hram, writeByte_ram s v hram]
  refine ⟨rfl, ?readBack, fun n hne => Memory.read_write_other s.mem v hne, rfl⟩
  case readBack => rw [Memory.read_write_same]

/-! ### Words away from the ports -/

theorem readByte_writeWord_low (s : State) {addr : Word} (v : Word) (h : isPort addr = false) :
    readByte (writeWord s addr v) addr = some (loByte v, writeWord s addr v) := by
  rw [readByte_ram _ h, (writeWord_stored s addr v).low h, loByte_eq]

theorem readByte_writeWord_high (s : State) {addr : Word} (v : Word) (h : isPort (addr + 1#16) = false) :
    readByte (writeWord s addr v) (addr + 1#16) = some (hiByte v, writeWord s addr v) := by
  rw [readByte_ram _ h, (writeWord_stored s addr v).high h, hiByte_eq]

/-- `loByte` by the formula `v mod 0x100` (R59). -/
theorem loByte_eq_mod (v : Word) : loByte v = BitVec.ofNat 8 (v.toNat % 0x100) := by
  rw [loByte_eq]
  exact BitVec.eq_of_toNat_eq (by simp)

/-- Settles O13: each of the two byte reads finds its half, and the halves make the word. -/
theorem wordRoundTrip : Obligations.WordRoundTrip := by
  unfold Obligations.WordRoundTrip
  intro s addr v hlow hhigh
  have hlo := readByte_writeWord_low s v hlow
  have hhi := readByte_writeWord_high s v hhigh
  refine ⟨?word, loByte_eq_mod v ▸ hlo, hiByte_eq v ▸ hhi⟩
  case word => simp only [readWord, hlo, hhi, wordOf_bytes]

/-! ### The four ports -/

section
variable (s : State) (v : Byte)

/-- R63. -/
theorem readByte_stdout : readByte s 0xFF00#16 = some (0x00#8, s) := rfl

/-- R64. -/
theorem readByte_stdin : readByte s 0xFF01#16 = stdinRead s := rfl

/-- R67. -/
theorem readByte_timerControl : readByte s 0xFF02#16 = some (if s.timerEnabled then 0x01#8 else 0x00#8, s) := rfl

/-- R69. -/
theorem readByte_timerValue : readByte s 0xFF03#16 = some (loByte s.timerValue, s) := rfl

/-- R62. -/
theorem writeByte_stdout : writeByte s 0xFF00#16 v = emit s v := rfl

/-- R65. -/
theorem writeByte_stdin : writeByte s 0xFF01#16 v = s := rfl

/-- R66. -/
theorem writeByte_timerControl : writeByte s 0xFF02#16 v = timerControlWrite s v := rfl

/-- R68. -/
theorem writeByte_timerValue : writeByte s 0xFF03#16 v = timerValueWrite s v := rfl

end

/-- Settles O9, by the reads of the two timer ports. -/
theorem timerPortReads : Obligations.TimerPortReads := by
  unfold Obligations.TimerPortReads
  intro s
  rw [readByte_timerControl, readByte_timerValue, loByte_eq_mod]
  exact ⟨fun h => by rw [if_pos h], fun h => by simp [h], rfl⟩

/-- Settles O10, by `stdinRead` on the three forms of the host input. -/
theorem stdinReads : Obligations.StdinReads := by
  unfold Obligations.StdinReads
  intro s v rest
  exact ⟨readByte_stdin _, readByte_stdin _, readByte_stdin _, readByte_stdout s⟩

/-- `zextByte` by the number of the byte (R4). -/
theorem zextByte_eq (v : Byte) : zextByte v = BitVec.ofNat 16 v.toNat :=
  BitVec.eq_of_toNat_eq (by simp [zextByte])

/-- Settles O11, by the handler of each port. -/
theorem portWrites : Obligations.PortWrites := by
  unfold Obligations.PortWrites
  intro s v
  refine ⟨writeByte_stdout s v, writeByte_stdin s v, ?enable, ?disable, ?value⟩
  case enable =>
    intro hv
    have hne : v ≠ 0x00#8 := fun h => hv (by rw [h]; rfl)
    rw [writeByte_timerControl, timerControlWrite, if_neg hne]
  case disable =>
    intro hv
    have hzero : v = 0x00#8 := BitVec.eq_of_toNat_eq hv
    rw [writeByte_timerControl, timerControlWrite, if_pos hzero]
  case value => rw [writeByte_timerValue, timerValueWrite, zextByte_eq]

/-! ### Words across the ports (R71, R72) -/

/-- The high byte of a word write to timer control replaces whatever the low byte made of the timer value. -/
theorem writeWord_timerControl (s : State) (v : Word) :
    writeWord s 0xFF02#16 v =
      { s with timerEnabled := loByte v != 0x00#8, timerValue := zextByte (hiByte v) } := by
  have hhigh : (0xFF02#16 + 1#16 : Word) = 0xFF03#16 := rfl
  rw [writeWord, hhigh, writeByte_timerControl, writeByte_timerValue]
  by_cases hz : loByte v = 0x00#8
  · simp [timerControlWrite, timerValueWrite, hz]
  · simp [timerControlWrite, timerValueWrite, hz]

/-- Settles O14: a word access is two accesses of neighbouring ports. -/
theorem wordAcrossPorts : Obligations.WordAcrossPorts := by
  unfold Obligations.WordAcrossPorts
  intro s v x rest
  refine ⟨?readStdout, ?readStdin, ?writeStdout, ?writeControl⟩
  case readStdout =>
    simp [readWord, readByte_stdout, readByte_stdin, stdinRead, wordOf_eq]
  case readStdin =>
    cases s.timerEnabled <;> simp [readWord, readByte_stdin, readByte_timerControl, stdinRead, wordOf_eq]
  case writeStdout =>
    have hhigh : (0xFF00#16 + 1#16 : Word) = 0xFF01#16 := rfl
    rw [writeWord, hhigh, writeByte_stdout, writeByte_stdin, emit, loByte_eq]
  case writeControl =>
    have hhigh : v.toNat / 0x100 % 0x100 = v.toNat / 0x100 := by omega
    rw [writeWord_timerControl, loByte_eq, hiByte_eq, byte_ne_zero, zextByte_ofNat, hhigh]

end Sys2Proof.Machine

/-! ## What a step does to the host's streams (spec/20_memory.md R62, R64, R80, R81)

The addresses of one fetch are at most four in a row, so at most one of them is STDIN; an execution takes at most one byte
more, and emits at most one. -/

namespace Sys2Proof.Machine

/-! ### Bytes sent and taken -/

/-- From `s` to `t` at most `sends` bytes went to the end of the output and at most `takes` came from the front of the
input. -/
structure StreamsMoved (sends takes : Nat) (s t : State) : Prop where
  output : ∃ sent : List Byte, sent.length ≤ sends ∧ t.output = s.output ++ sent
  input : ∃ n, n ≤ takes ∧ t.input = s.input.drop n
  inputEnded : t.inputEnded = s.inputEnded

namespace StreamsMoved

variable {sends takes sends' takes' : Nat} {s t u : State}

/-- The streams are as they were. -/
theorem of_eq (ho : t.output = s.output) (hi : t.input = s.input) (he : t.inputEnded = s.inputEnded) :
    StreamsMoved sends takes s t :=
  ⟨⟨[], Nat.zero_le _, by simp [ho]⟩, ⟨0, Nat.zero_le _, by simp [hi]⟩, he⟩

/-- Bounds add up along two stretches. -/
theorem trans (h : StreamsMoved sends takes s t) (h' : StreamsMoved sends' takes' t u) :
    StreamsMoved (sends + sends') (takes + takes') s u := by
  obtain ⟨⟨sent, hsent, ho⟩, ⟨n, hn, hi⟩, he⟩ := h
  obtain ⟨⟨sent', hsent', ho'⟩, ⟨n', hn', hi'⟩, he'⟩ := h'
  refine ⟨⟨sent ++ sent', ?_, ?_⟩, ⟨n + n', by omega, ?_⟩, he'.trans he⟩
  · rw [List.length_append]; omega
  · rw [ho', ho, List.append_assoc]
  · rw [hi', hi, List.drop_drop]

end StreamsMoved

/-! ### The fetch takes at most one byte -/

/-- After STDIN come addresses that are not STDIN, for as long as an instruction lasts. -/
theorem inputAfterBytes_past_stdin (s : State) {n : Nat} (hn : n ≤ 3) :
    inputAfterBytes s (0xFF01#16 + 1#16) n = s.input := by
  interval_cases n <;> simp [inputAfterBytes]

theorem inputAfterBytes_eq_drop (s : State) (addr : Word) (n : Nat) :
    ∃ k, k ≤ 1 ∧ inputAfterBytes s addr n = s.input.drop k := by
  induction n generalizing addr with
  | zero => exact ⟨0, by simp, rfl⟩
  | succ n ih =>
    rw [inputAfterBytes]
    split
    · exact ⟨1, le_rfl, List.drop_one.symm⟩
    · exact ih (addr + 1#16)

/-- The opcode byte and up to three bytes after it are one run of bytes. -/
theorem inputAfterBytes_afterByte (s : State) {n : Nat} (hn : n ≤ 3) (addr cursor timer : Word) :
    inputAfterBytes { s with input := inputAfterByte s addr, cursor := cursor, timerValue := timer } (addr + 1#16) n =
      inputAfterBytes s addr (n + 1) := by
  rw [inputAfterBytes]
  split
  case isTrue h =>
    subst h
    exact inputAfterBytes_past_stdin _ hn
  case isFalse h => exact inputAfterBytes_of_eq n s _ _ (if_neg h)

/-- R92: no instruction is longer than four bytes. -/
theorem operandBytes_le (sh : Shape) : sh.operandBytes ≤ 3 := by
  cases sh <;> simp [Shape.operandBytes]

/-- The input after the fetch of an instruction. -/
theorem input_of_fetched {s s1 : State} {i : Instr} (h : fetch s = .fetched i s1) :
    ∃ n, s1.input = inputAfterBytes s s.pc n := by
  rw [fetch_eq] at h
  split at h
  case isFalse => cases h
  split at h
  case h_1 => cases h
  case h_2 sh _ =>
    have hn := operandBytes_le sh
    rw [fetchOperands, fetchBytes_eq _ hn] at h
    split at h
    case h_1 => cases h
    case h_2 ops s2 hops =>
      split at hops
      case isFalse => cases hops
      case isTrue =>
        cases hops
        cases h
        exact ⟨_, inputAfterBytes_afterByte s hn s.pc _ _⟩

/-- The input after the fetch of an illegal opcode, which reads no operand byte (R141). -/
theorem input_of_unknown {s s1 : State} (h : fetch s = .unknown s1) : s1.input = inputAfterBytes s s.pc 1 := by
  rw [fetch_eq] at h
  split at h
  case isFalse => cases h
  split at h
  case h_1 => cases h; rfl
  case h_2 sh _ =>
    unfold fetchOperands at h
    split at h <;> cases h

/-- A fetch changes nothing that `afterFetch` does not name, and its input is that of one run of bytes. -/
theorem StreamsMoved.of_afterFetch {s : State} {cursor : Word} {input : List Byte} {n : Nat}
    (h : input = inputAfterBytes s s.pc n) : StreamsMoved 0 1 s (afterFetch s cursor input) where
  output := ⟨[], le_rfl, (List.append_nil _).symm⟩
  input := h ▸ inputAfterBytes_eq_drop s s.pc n
  inputEnded := rfl

theorem streamsMoved_of_fetched {s s1 : State} {i : Instr} (h : fetch s = .fetched i s1) : StreamsMoved 0 1 s s1 := by
  obtain ⟨n, hinput⟩ := input_of_fetched h
  obtain ⟨cursor, input, rfl⟩ := afterFetch_of_fetched h
  exact .of_afterFetch hinput

theorem streamsMoved_of_unknown {s s1 : State} (h : fetch s = .unknown s1) : StreamsMoved 0 1 s s1 := by
  have hinput := input_of_unknown h
  obtain ⟨cursor, input, rfl⟩ := afterFetch_of_unknown h
  exact .of_afterFetch hinput

/-! ### The execution and the step -/

/-- An execution sends at most one byte and takes at most one: what its writeback finds touched says so. -/
theorem streamsMoved_of_ends {i : Instr} {s t : State} (h : Ends i s t) : StreamsMoved 1 1 s t := by
  cases h with
  | waits | divideByZero | halts => exact .of_eq rfl rfl rfl
  | retires u hu => exact ⟨hu.output, hu.input, hu.inputEnded⟩

/-- A step sends at most one byte and takes at most two. -/
theorem streamsMoved_of_step {s t : State} (h : step s = .next t) : StreamsMoved 1 2 s t := by
  rcases step_cases s t h with ⟨-, rfl⟩ | ⟨-, -, rfl⟩ | ⟨s1, -, hfetch, rfl⟩ | ⟨i, s1, -, -, -, -, rfl⟩ |
    ⟨i, s1, -, hfetch, -, hends, -⟩
  · exact .of_eq rfl rfl rfl
  · exact .of_eq rfl rfl rfl
  · have hfatal : StreamsMoved 1 1 s1 (raiseFatal .unknownOpcode s1) := .of_eq rfl rfl rfl
    exact (streamsMoved_of_unknown hfetch).trans hfatal
  · exact .of_eq rfl rfl rfl
  · exact (streamsMoved_of_fetched hfetch).trans (streamsMoved_of_ends hends)

/-- Settles O51: the clauses are the fields of `StreamsMoved`. -/
theorem streamsAreStreams : Obligations.StreamsAreStreams := by
  unfold Obligations.StreamsAreStreams
  intro s t h
  obtain ⟨houtput, hinput, hended⟩ := streamsMoved_of_step h
  exact ⟨houtput, hinput, hended⟩

end Sys2Proof.Machine

/-! ## The cells under the ports (spec/20_memory.md R73)

No operation reads or writes them: run from two states whose memories agree off the ports, every operation answers the same
and leaves two such states again. The relation is carried through the memory interface, the fetch, each instruction and the
step; what becomes of the cells themselves is `Touched.portCells`. -/

namespace Sys2Proof.Machine

/-- The second state is the first but for memory cells under the ports. -/
inductive AlikeOffPorts (s : State) : State → Prop where
  | intro (m : Memory) (hm : ∀ n, ¬(0xFF00 ≤ n ∧ n ≤ 0xFF03) → m.read n = s.mem.read n) :
      AlikeOffPorts s { s with mem := m }

namespace AlikeOffPorts

variable {s s' : State}

/-! ### What the two states agree on -/

section
variable (h : AlikeOffPorts s s')
include h

theorem readReg (r : Reg) : readReg s' r = readReg s r := by cases h; cases r <;> rfl
theorem sp : s'.sp = s.sp := by cases h; rfl
theorem flags : s'.flags = s.flags := by cases h; rfl
theorem halted : s'.halted = s.halted := by cases h; rfl
theorem cursor : s'.cursor = s.cursor := by cases h; rfl
theorem lastStep : s'.lastStep = s.lastStep := by cases h; rfl

/-- The state is the same where memory is put back. -/
theorem withMem : { s' with mem := s.mem } = s := by cases h; rfl

theorem memRead {n : Nat} (hn : ¬(0xFF00 ≤ n ∧ n ≤ 0xFF03)) : s'.mem.read n = s.mem.read n := by
  cases h with
  | intro m hm => exact hm n hn

/-- A read at a port does not reach the memory, and a read elsewhere does not reach the cells under the ports. -/
theorem byteAt (addr : Word) : byteAt s' addr = byteAt s addr := by
  cases h with
  | intro m hm =>
    by_cases hport : isPort addr = true
    · obtain rfl | rfl | rfl | rfl := (isPort_iff addr).1 hport <;> rfl
    · have hram : isPort addr = false := by simpa using hport
      have hcell : ¬(0xFF00 ≤ addr.toNat ∧ addr.toNat ≤ 0xFF03) :=
        fun ⟨hlow, hhigh⟩ => port_toNat hram _ hlow hhigh rfl
      obtain ⟨-, hbyte, -⟩ := read_ram s addr hram
      obtain ⟨-, hbyte', -⟩ := read_ram { s with mem := m } addr hram
      rw [hbyte, hbyte', hm _ hcell]

end

/-! ### Updates that do not touch memory -/

theorem writeReg (r : Reg) (v : Word) : AlikeOffPorts s s' → AlikeOffPorts (writeReg s r v) (writeReg s' r v)
  | .intro m hm => by cases r <;> exact .intro m hm

theorem setFlags (r : Alu) : AlikeOffPorts s s' → AlikeOffPorts (setFlags s r) (setFlags s' r)
  | .intro m hm => .intro m hm

theorem setSp (v : Word) : AlikeOffPorts s s' → AlikeOffPorts (setSp s v) (setSp s' v)
  | .intro m hm => .intro m hm

theorem jumpTo (target : Word) : AlikeOffPorts s s' → AlikeOffPorts (jumpTo s target) (jumpTo s' target)
  | .intro m hm => .intro m hm

theorem moveCursor (v : Word) : AlikeOffPorts s s' → AlikeOffPorts { s with cursor := v } { s' with cursor := v }
  | .intro m hm => .intro m hm

theorem tick : AlikeOffPorts s s' → AlikeOffPorts (tick s) (tick s')
  | .intro m hm => by rw [tick_eq, tick_eq]; exact .intro m hm

theorem retire : AlikeOffPorts s s' → AlikeOffPorts (retire s) (retire s')
  | .intro m hm => .intro m hm

theorem halt : AlikeOffPorts s s' → AlikeOffPorts (halt s) (halt s')
  | .intro m hm => .intro m hm

theorem raiseFatal (kind : RuntimeError) : AlikeOffPorts s s' → AlikeOffPorts (raiseFatal kind s) (raiseFatal kind s')
  | .intro m hm => .intro m hm

theorem awaitInput : AlikeOffPorts s s' → AlikeOffPorts (awaitInput s) (awaitInput s')
  | .intro m hm => .intro m hm

theorem alreadyHalted : AlikeOffPorts s s' → AlikeOffPorts (alreadyHalted s) (alreadyHalted s')
  | .intro m hm => .intro m hm

theorem beginStep : AlikeOffPorts s s' → AlikeOffPorts (beginStep s) (beginStep s')
  | .intro m hm => .intro m hm

/-! ### Writes -/

theorem writeByte (addr : Word) (v : Byte) : AlikeOffPorts s s' → AlikeOffPorts (writeByte s addr v) (writeByte s' addr v)
  | .intro m hm => by
    rw [writeByte_eq, writeByte_eq]
    refine .intro (if isPort addr = true then m else m.write addr.toNat v) fun n hn => ?_
    by_cases hport : isPort addr = true
    · rw [if_pos hport, if_pos hport, hm n hn]
    · rw [if_neg hport, if_neg hport, Memory.read_write, Memory.read_write, hm n hn]

theorem writeWord (addr v : Word) (h : AlikeOffPorts s s') :
    AlikeOffPorts (writeWord s addr v) (writeWord s' addr v) :=
  (h.writeByte addr (loByte v)).writeByte (addr + 1#16) (hiByte v)

theorem push (v : Word) (h : AlikeOffPorts s s') : AlikeOffPorts (push s v) (push s' v) := by
  unfold Machine.push
  rw [h.sp]
  exact (h.setSp _).writeWord _ v

end AlikeOffPorts

/-! ### Reads and the fetch -/

/-- Two reads that both wait, or both find the same and leave states alike off the ports. -/
inductive ReadsAlike {α : Type} : Option (α × State) → Option (α × State) → Prop where
  | waits : ReadsAlike none none
  | finds (v : α) {t t' : State} (h : AlikeOffPorts t t') : ReadsAlike (some (v, t)) (some (v, t'))

section
variable {s s' : State}

theorem readByte_alike (addr : Word) (h : AlikeOffPorts s s') : ReadsAlike (readByte s addr) (readByte s' addr) := by
  rw [readByte_eq, readByte_eq s', h.byteAt]
  cases h with
  | intro m hm =>
    by_cases hready : readReady s addr = true
    · have hready' : readReady { s with mem := m } addr = true := hready
      rw [if_pos hready, if_pos hready']
      exact .finds _ (.intro m hm)
    · have hready' : ¬readReady { s with mem := m } addr = true := hready
      rw [if_neg hready, if_neg hready']
      exact .waits

theorem readWord_alike (addr : Word) (h : AlikeOffPorts s s') : ReadsAlike (readWord s addr) (readWord s' addr) := by
  have hlow := readByte_alike addr h
  unfold readWord
  generalize readByte s addr = low, readByte s' addr = low' at hlow ⊢
  cases hlow with
  | waits => exact .waits
  | @finds lo t t' ht =>
    have hhigh := readByte_alike (addr + 1#16) ht
    simp only
    generalize readByte t (addr + 1#16) = high, readByte t' (addr + 1#16) = high' at hhigh ⊢
    cases hhigh with
    | waits => exact .waits
    | finds hi hu => exact .finds (wordOf lo hi) hu

theorem pop_alike (h : AlikeOffPorts s s') : ReadsAlike (pop s) (pop s') := by
  have hread := readWord_alike s.sp h
  unfold pop
  rw [h.sp]
  generalize readWord s s.sp = word, readWord s' s.sp = word' at hread ⊢
  cases hread with
  | waits => exact .waits
  | finds v ht => simp only [ht.sp]; exact .finds v (ht.setSp _)

theorem fetchByte_alike (h : AlikeOffPorts s s') : ReadsAlike (fetchByte s) (fetchByte s') := by
  have hread := readByte_alike s.cursor h
  unfold fetchByte
  rw [h.cursor]
  generalize readByte s s.cursor = byte, readByte s' s.cursor = byte' at hread ⊢
  cases hread with
  | waits => exact .waits
  | finds v ht => simp only [ht.cursor]; exact .finds v (ht.moveCursor _)

theorem fetchBytes_alike (n : Nat) (h : AlikeOffPorts s s') : ReadsAlike (fetchBytes n s) (fetchBytes n s') := by
  induction n generalizing s s' with
  | zero => exact .finds [] h
  | succ n ih =>
    have hfirst := fetchByte_alike h
    unfold fetchBytes
    generalize fetchByte s = first, fetchByte s' = first' at hfirst ⊢
    cases hfirst with
    | waits => exact .waits
    | @finds v t t' ht =>
      have hrest := ih ht
      simp only
      generalize fetchBytes n t = rest, fetchBytes n t' = rest' at hrest ⊢
      cases hrest with
      | waits => exact .waits
      | finds vs hu => exact .finds (v :: vs) hu

/-- Two fetches that end the same way, in states alike off the ports. -/
inductive FetchesAlike : Fetched → Fetched → Prop where
  | waits : FetchesAlike .waits .waits
  | unknown {t t' : State} (h : AlikeOffPorts t t') : FetchesAlike (.unknown t) (.unknown t')
  | fetched (i : Instr) {t t' : State} (h : AlikeOffPorts t t') : FetchesAlike (.fetched i t) (.fetched i t')

theorem fetchOperands_alike (sh : Shape) (h : AlikeOffPorts s s') :
    FetchesAlike (fetchOperands sh s) (fetchOperands sh s') := by
  have hbytes := fetchBytes_alike sh.operandBytes h
  unfold fetchOperands
  generalize fetchBytes sh.operandBytes s = bytes, fetchBytes sh.operandBytes s' = bytes' at hbytes ⊢
  cases hbytes with
  | waits => exact .waits
  | finds ops ht => exact .fetched (sh.build ops) ht

theorem fetch_alike (h : AlikeOffPorts s s') : FetchesAlike (fetch s) (fetch s') := by
  have hopcode := fetchByte_alike h.beginStep
  unfold fetch
  generalize fetchByte (beginStep s) = opcode, fetchByte (beginStep s') = opcode' at hopcode ⊢
  cases hopcode with
  | waits => exact .waits
  | finds op ht =>
    simp only
    cases shapeOf op with
    | none => exact .unknown ht.tick
    | some sh => exact fetchOperands_alike sh ht.tick

/-! ### Instructions -/

/-- Two next states alike off the ports. -/
inductive AnswersAlike : Result → Result → Prop where
  | next {t t' : State} (h : AlikeOffPorts t t') : AnswersAlike (.next t) (.next t')

theorem retireAlu_alike (rd : Reg) (r : Alu) (h : AlikeOffPorts s s') :
    AnswersAlike (retireAlu s rd r) (retireAlu s' rd r) :=
  .next ((h.setFlags r).writeReg rd r.value).retire

theorem retireCompare_alike (r : Alu) (h : AlikeOffPorts s s') :
    AnswersAlike (retireCompare s r) (retireCompare s' r) :=
  .next (h.setFlags r).retire

theorem retireJump_alike (taken : Bool) (addr : Word) (h : AlikeOffPorts s s') :
    AnswersAlike (retireJump s taken addr) (retireJump s' taken addr) := by
  cases taken with
  | false => exact .next h.retire
  | true => exact .next (h.jumpTo addr).retire

theorem execDiv_alike (rd rs : Reg) (h : AlikeOffPorts s s') : AnswersAlike (execDiv rd rs s) (execDiv rd rs s') := by
  simp only [execDiv, h.readReg]
  split
  case isTrue => exact .next (h.raiseFatal .divideByZero)
  case isFalse => exact .next (((h.setFlags _).writeReg rd _).writeReg rs _).retire

theorem execLoadMem_alike (r : Reg) (addr : Word) (h : AlikeOffPorts s s') :
    AnswersAlike (execLoadMem r addr s) (execLoadMem r addr s') := by
  have hread := readWord_alike addr h
  unfold execLoadMem
  generalize readWord s addr = word, readWord s' addr = word' at hread ⊢
  cases hread with
  | waits => exact .next h.awaitInput
  | finds v ht => exact .next (ht.writeReg r v).retire

theorem execPop_alike (r : Reg) (h : AlikeOffPorts s s') : AnswersAlike (execPop r s) (execPop r s') := by
  have hpop := pop_alike h
  unfold execPop
  generalize pop s = word, pop s' = word' at hpop ⊢
  cases hpop with
  | waits => exact .next h.awaitInput
  | finds v ht => exact .next (ht.writeReg r v).retire

theorem execRet_alike (h : AlikeOffPorts s s') : AnswersAlike (execRet s) (execRet s') := by
  have hpop := pop_alike h
  unfold execRet
  generalize pop s = word, pop s' = word' at hpop ⊢
  cases hpop with
  | waits => exact .next h.awaitInput
  | finds v ht => exact .next (ht.jumpTo v).retire

theorem execIn_alike (r : Reg) (port : Word) (h : AlikeOffPorts s s') :
    AnswersAlike (execIn r port s) (execIn r port s') := by
  have hread := readByte_alike port h
  unfold execIn
  generalize readByte s port = byte, readByte s' port = byte' at hread ⊢
  cases hread with
  | waits => exact .next h.awaitInput
  | finds v ht => exact .next (ht.writeReg r (zextByte v)).retire

theorem exec_alike (i : Instr) (h : AlikeOffPorts s s') : AnswersAlike (exec i s) (exec i s') := by
  cases i with
  | nop => exact .next h.retire
  | hlt => exact .next h.halt
  | loadImm r imm => exact .next (h.writeReg r imm).retire
  | mov rd rs =>
    simp only [exec, execMov, h.readReg]
    exact .next (h.writeReg rd _).retire
  | loadMem r addr => exact execLoadMem_alike r addr h
  | pop r => exact execPop_alike r h
  | ret => exact execRet_alike h
  | inPort r port => exact execIn_alike r port h
  | store addr r =>
    simp only [exec, execStore, h.readReg]
    exact .next (h.writeWord addr _).retire
  | push r =>
    simp only [exec, execPush, h.readReg]
    exact .next (h.push _).retire
  | call addr =>
    simp only [exec, execCall, h.cursor]
    exact .next ((h.push _).jumpTo addr).retire
  | outPort port r =>
    simp only [exec, execOut, h.readReg]
    exact .next (h.writeByte port _).retire
  | add | addi | sub | subi | mul | inc | dec =>
    simp only [exec, execAdd, execAddi, execSub, execSubi, execMul, execInc, execDec, h.readReg]
    exact retireAlu_alike _ _ h
  | and | or | xor | not | shl | shr =>
    simp only [exec, execAnd, execOr, execXor, execNot, execShl, execShr, h.readReg]
    exact retireAlu_alike _ _ h
  | div rd rs => exact execDiv_alike rd rs h
  | cmp | cmpi =>
    simp only [exec, execCmp, execCmpi, h.readReg]
    exact retireCompare_alike _ h
  | jmp | jz | jnz | jc | jnc =>
    simp only [exec, execJmp, execJz, execJnz, execJc, execJnc, h.flags]
    exact retireJump_alike _ _ h

/-! ### The step -/

theorem settle_alike {r r' : Result} (h : AlikeOffPorts s s') (hr : AnswersAlike r r') :
    AnswersAlike (settle s r) (settle s' r') := by
  cases hr with
  | next ht =>
    rw [settle_next, settle_next, ht.lastStep]
    split
    case isTrue => exact .next h.awaitInput
    case isFalse => exact .next ht

/-- R73: the cells under the ports have no effect on a step. -/
theorem step_alike (h : AlikeOffPorts s s') : AnswersAlike (step s) (step s') := by
  unfold step
  rw [h.halted]
  split
  case isTrue => exact .next h.alreadyHalted
  case isFalse =>
    have hfetch := fetch_alike h
    generalize fetch s = fetched, fetch s' = fetched' at hfetch ⊢
    cases hfetch with
    | waits => exact .next h.awaitInput
    | unknown ht => exact .next (ht.raiseFatal .unknownOpcode)
    | fetched i ht => exact settle_alike h (exec_alike i ht)

end

/-- R73: no step writes the cells under the ports. -/
theorem portCells_of_step {s t : State} (h : step s = .next t) {n : Nat} (hlow : 0xFF00 ≤ n) (hhigh : n ≤ 0xFF03) :
    t.mem.read n = s.mem.read n := by
  cases step_ends h with
  | alreadyHalted | waits | fatal | halts => rfl
  | retires cursor input u hh hu => exact hu.portCells n hlow hhigh

/-- A write to a cell under a port leaves a state alike off the ports. -/
theorem AlikeOffPorts.writeCell (s : State) {n : Nat} (hlow : 0xFF00 ≤ n) (hhigh : n ≤ 0xFF03) (v : Byte) :
    AlikeOffPorts s { s with mem := s.mem.write n v } :=
  .intro _ fun _ hk => Memory.read_write_other s.mem v fun heq => hk (heq ▸ ⟨hlow, hhigh⟩)

/-- Settles O49: off the ports the two answers agree by `step_alike`; under the ports each state keeps its own cells. -/
theorem portCellsUntouched : Obligations.PortCellsUntouched := by
  unfold Obligations.PortCellsUntouched
  refine ⟨fun s t n h hlow hhigh => portCells_of_step h hlow hhigh, fun s t n v hlow hhigh h => ?_⟩
  have hstep := step_alike (AlikeOffPorts.writeCell s hlow hhigh v)
  rw [h] at hstep
  generalize hanswer : step { s with mem := s.mem.write n v } = answer at hstep ⊢
  cases hstep with
  | @next _ t' ht =>
    refine ⟨t', rfl, ht.withMem, fun k hk => ?others, ?cell⟩
    case others =>
      by_cases hport : 0xFF00 ≤ k ∧ k ≤ 0xFF03
      · obtain ⟨hklow, hkhigh⟩ := hport
        rw [portCells_of_step hanswer hklow hkhigh, portCells_of_step h hklow hkhigh, Memory.read_write_other s.mem v hk]
      · exact ht.memRead hport
    case cell => rw [portCells_of_step hanswer hlow hhigh, Memory.read_write_same]

end Sys2Proof.Machine

/-! ## Decoding and encoding (spec/30_encoding.md R90 to R99)

Decoding is one rule: an opcode of the map, and as many bytes as its format asks for, make the instruction that `build` says.
Each format then has one lemma that reads its operand bytes, one that encodes what it has read, and the opcode map is walked
through once in each direction. -/

namespace Sys2Proof.Machine

/-! ### The rule of the decoder -/

/-- R92: an opcode with a format, followed by as many bytes as the format asks for, decodes to what the format builds. -/
theorem decodesTo_build {op : Byte} {sh : Shape} {ops : List Byte} (h : shapeOf op = some sh)
    (hlen : ops.length = sh.operandBytes) : decodesTo (op :: ops) (sh.build ops) := by
  intro rest
  have henough : ¬(ops ++ rest).length < sh.operandBytes := by simp [hlen]
  simp only [List.cons_append, decode, h, henough, if_false]
  rw [← hlen, List.take_left, List.drop_left]

/-- The inversion of `decode`: what it accepts is an opcode with a format, the operand bytes of the format, and the rest. -/
theorem decode_cases {bytes rest : List Byte} {i : Instr} (h : decode bytes = .ok (i, rest)) :
    ∃ op sh ops, shapeOf op = some sh ∧ ops.length = sh.operandBytes ∧ i = sh.build ops ∧ bytes = op :: ops ++ rest := by
  cases bytes with
  | nil => cases h
  | cons op tail =>
    rw [decode] at h
    split at h
    case h_1 => cases h
    case h_2 sh hsh =>
      split at h
      case isTrue => cases h
      case isFalse hlen =>
        cases h
        exact ⟨op, sh, tail.take sh.operandBytes, hsh, List.length_take_of_le (Nat.le_of_not_lt hlen), rfl,
          by rw [List.cons_append, List.take_append_drop]⟩

/-! ### What each format reads (R92 to R97) -/

/-- R93: a `reg` byte names a register by its whole value. -/
theorem regOf_toNat (b : Byte) : regOf b.toNat = Reg.ofByte b := by
  obtain ⟨-, -, hreg⟩ := regOf_eq b
  exact hreg

section
variable {op : Byte}

theorem decodesTo_n {i : Instr} (h : shapeOf op = some (.n i)) : decodesTo [op] i :=
  decodesTo_build h rfl

theorem decodesTo_r {f : Reg → Instr} (h : shapeOf op = some (.r f)) (b1 : Byte) :
    decodesTo [op, b1] (f (regOf b1.toNat)) := by
  rw [regOf_toNat]
  exact decodesTo_build h rfl

theorem decodesTo_p {f : Reg → Reg → Instr} (h : shapeOf op = some (.p f)) (b1 : Byte) :
    decodesTo [op, b1] (f (regOf (b1.toNat / 16)) (regOf (b1.toNat % 16))) := by
  obtain ⟨hhigh, hlow, -⟩ := regOf_eq b1
  rw [hhigh, hlow]
  exact decodesTo_build h rfl

theorem decodesTo_rw {f : Reg → Word → Instr} (h : shapeOf op = some (.rw f)) (b1 b2 b3 : Byte) :
    decodesTo [op, b1, b2, b3] (f (regOf b1.toNat) (word16 b2 b3)) := by
  rw [regOf_toNat, word16_eq]
  exact decodesTo_build h rfl

theorem decodesTo_wr {f : Word → Reg → Instr} (h : shapeOf op = some (.wr f)) (b1 b2 b3 : Byte) :
    decodesTo [op, b1, b2, b3] (f (word16 b1 b2) (regOf b3.toNat)) := by
  rw [regOf_toNat, word16_eq]
  exact decodesTo_build h rfl

theorem decodesTo_rs {f : Reg → Byte → Instr} (h : shapeOf op = some (.rs f)) (b1 b2 : Byte) :
    decodesTo [op, b1, b2] (f (regOf b1.toNat) b2) := by
  rw [regOf_toNat]
  exact decodesTo_build h rfl

theorem decodesTo_w {f : Word → Instr} (h : shapeOf op = some (.w f)) (b1 b2 : Byte) :
    decodesTo [op, b1, b2] (f (word16 b1 b2)) := by
  rw [word16_eq]
  exact decodesTo_build h rfl

end

/-- Settles O2: each row of the opcode map, by what its format reads. -/
theorem opcodeMap : Obligations.OpcodeMap := by
  unfold Obligations.OpcodeMap
  intro b1 b2 b3
  exact ⟨decodesTo_n rfl, decodesTo_rw rfl b1 b2 b3, decodesTo_rw rfl b1 b2 b3, decodesTo_wr rfl b1 b2 b3,
    decodesTo_p rfl b1, decodesTo_r rfl b1, decodesTo_r rfl b1,
    decodesTo_p rfl b1, decodesTo_rw rfl b1 b2 b3, decodesTo_p rfl b1, decodesTo_rw rfl b1 b2 b3,
    decodesTo_p rfl b1, decodesTo_p rfl b1, decodesTo_r rfl b1, decodesTo_r rfl b1,
    decodesTo_p rfl b1, decodesTo_p rfl b1, decodesTo_p rfl b1, decodesTo_r rfl b1,
    decodesTo_rs rfl b1 b2, decodesTo_rs rfl b1 b2, decodesTo_p rfl b1, decodesTo_rw rfl b1 b2 b3,
    decodesTo_w rfl b1 b2, decodesTo_w rfl b1 b2, decodesTo_w rfl b1 b2, decodesTo_w rfl b1 b2,
    decodesTo_w rfl b1 b2, decodesTo_w rfl b1 b2, decodesTo_n rfl,
    decodesTo_rw rfl b1 b2 b3, decodesTo_wr rfl b1 b2 b3, decodesTo_n rfl⟩

/-! ### Decoding what a format encodes -/

/-- A well-formed `reg` operand is read back from its index byte. -/
theorem regOf_index {r : Reg} (h : r.wellFormedByte = true) : regOf r.index.toNat = r := by
  rw [regOf_toNat, ofByte_index r h]

/-- Two well-formed packed operands are read back from their byte. -/
theorem regOf_packRegs {rd rs : Reg} (hd : rd.wellFormedNibble = true) (hs : rs.wellFormedNibble = true) :
    regOf ((packRegs rd rs).toNat / 16) = rd ∧ regOf ((packRegs rd rs).toNat % 16) = rs := by
  obtain ⟨hhigh, hlow, -⟩ := regOf_eq (packRegs rd rs)
  exact ⟨hhigh.trans (packRegs_high rd rs hd), hlow.trans (packRegs_low rd rs hs)⟩

/-- A word is read back from its two bytes. -/
theorem word16_bytes (w : Word) : word16 (loByte w) (hiByte w) = w := by
  rw [word16_eq, wordOf_bytes]

section
variable {op : Byte} {r : Reg}

theorem decodesTo_encodeR {f : Reg → Instr} (h : shapeOf op = some (.r f)) (hr : r.wellFormedByte = true) :
    decodesTo (encodeR op r) (f r) := by
  have hdec := decodesTo_r h r.index
  rwa [regOf_index hr] at hdec

theorem decodesTo_encodeP {f : Reg → Reg → Instr} {rd rs : Reg} (h : shapeOf op = some (.p f))
    (hregs : (rd.wellFormedNibble && rs.wellFormedNibble) = true) : decodesTo (encodeP op rd rs) (f rd rs) := by
  obtain ⟨hd, hs⟩ := Bool.and_eq_true_iff.1 hregs
  obtain ⟨hhigh, hlow⟩ := regOf_packRegs hd hs
  have hdec := decodesTo_p h (packRegs rd rs)
  rwa [hhigh, hlow] at hdec

theorem decodesTo_encodeRW {f : Reg → Word → Instr} (h : shapeOf op = some (.rw f)) (hr : r.wellFormedByte = true)
    (w : Word) : decodesTo (encodeRW op r w) (f r w) := by
  have hdec := decodesTo_rw h r.index (loByte w) (hiByte w)
  rwa [regOf_index hr, word16_bytes] at hdec

theorem decodesTo_encodeWR {f : Word → Reg → Instr} (h : shapeOf op = some (.wr f)) (w : Word)
    (hr : r.wellFormedByte = true) : decodesTo (encodeWR op w r) (f w r) := by
  have hdec := decodesTo_wr h (loByte w) (hiByte w) r.index
  rwa [regOf_index hr, word16_bytes] at hdec

theorem decodesTo_encodeRS {f : Reg → Byte → Instr} (h : shapeOf op = some (.rs f)) (hr : r.wellFormedByte = true)
    (k : Byte) : decodesTo (encodeRS op r k) (f r k) := by
  have hdec := decodesTo_rs h r.index k
  rwa [regOf_index hr] at hdec

theorem decodesTo_encodeW {f : Word → Instr} (h : shapeOf op = some (.w f)) (w : Word) :
    decodesTo (encodeW op w) (f w) := by
  have hdec := decodesTo_w h (loByte w) (hiByte w)
  rwa [word16_bytes] at hdec

end

/-- Settles O4: by the format of each instruction. -/
theorem decodeOfEncode : Obligations.DecodeOfEncode := by
  unfold Obligations.DecodeOfEncode
  intro i hwf
  cases i with
  | nop | ret | hlt => exact decodesTo_n rfl
  | push | pop | inc | dec | not => exact decodesTo_encodeR rfl hwf
  | mov | add | sub | mul | div | and | or | xor | cmp => exact decodesTo_encodeP rfl hwf
  | loadImm r w | loadMem r w | addi r w | subi r w | cmpi r w | inPort r w => exact decodesTo_encodeRW rfl hwf w
  | store w | outPort w => exact decodesTo_encodeWR rfl w hwf
  | shl r k | shr r k => exact decodesTo_encodeRS rfl hwf k
  | jmp w | jz w | jnz w | jc w | jnc w | call w => exact decodesTo_encodeW rfl w

/-! ### Encoding what a format has read -/

/-- The encoder and `wellFormed` treat every instruction of this format as the format does, under this opcode byte. -/
def EncodesAs (op : Byte) : Shape → Prop
  | .n i => i.wellFormed = true ∧ encode i = [op]
  | .r f => ∀ r, (f r).wellFormed = r.wellFormedByte ∧ encode (f r) = encodeR op r
  | .p f => ∀ rd rs, (f rd rs).wellFormed = (rd.wellFormedNibble && rs.wellFormedNibble) ∧
      encode (f rd rs) = encodeP op rd rs
  | .rw f => ∀ r w, (f r w).wellFormed = r.wellFormedByte ∧ encode (f r w) = encodeRW op r w
  | .wr f => ∀ w r, (f w r).wellFormed = r.wellFormedByte ∧ encode (f w r) = encodeWR op w r
  | .rs f => ∀ r k, (f r k).wellFormed = r.wellFormedByte ∧ encode (f r k) = encodeRS op r k
  | .w f => ∀ w, (f w).wellFormed = true ∧ encode (f w) = encodeW op w

/-- R98: the encoder uses the rows of the decoder's opcode map. -/
theorem encodesAs_of_shapeOf {op : Byte} {sh : Shape} (h : shapeOf op = some sh) : EncodesAs op sh := by
  have hop : op = BitVec.ofNat 8 op.toNat := by simp
  unfold shapeOf at h
  generalize op.toNat = n at h hop
  subst hop
  split at h <;> cases h
  all_goals
    simp only [EncodesAs]
    intros
    exact ⟨rfl, rfl⟩

/-- What a format builds of its operand bytes is well formed and has these bytes as its encoding. -/
theorem encode_build {op : Byte} {sh : Shape} {ops : List Byte} (h : EncodesAs op sh)
    (hlen : ops.length = sh.operandBytes) :
    (sh.build ops).wellFormed = true ∧ encode (sh.build ops) = op :: ops := by
  cases sh with
  | n i =>
    obtain rfl := List.length_eq_zero_iff.1 hlen
    exact h
  | r f =>
    obtain ⟨b1, rfl⟩ := List.length_eq_one_iff.1 hlen
    obtain ⟨hwf, henc⟩ := h (Reg.ofByte b1)
    exact ⟨hwf.trans (wellFormedByte_ofByte b1), henc.trans (by rw [encodeR, index_ofByte])⟩
  | p f =>
    obtain ⟨b1, rfl⟩ := List.length_eq_one_iff.1 hlen
    obtain ⟨hwf, henc⟩ := h (Reg.ofNibble (b1.extractLsb' 4 4)) (Reg.ofNibble (b1.extractLsb' 0 4))
    exact ⟨hwf.trans (by simp only [wellFormedNibble_ofNibble, Bool.and_self]),
      henc.trans (by rw [encodeP, packRegs_ofNibble])⟩
  | rw f =>
    obtain ⟨b1, b2, b3, rfl⟩ := List.length_eq_three.1 hlen
    obtain ⟨hwf, henc⟩ := h (Reg.ofByte b1) (wordOf b2 b3)
    exact ⟨hwf.trans (wellFormedByte_ofByte b1),
      henc.trans (by rw [encodeRW, index_ofByte, loByte_wordOf, hiByte_wordOf])⟩
  | wr f =>
    obtain ⟨b1, b2, b3, rfl⟩ := List.length_eq_three.1 hlen
    obtain ⟨hwf, henc⟩ := h (wordOf b1 b2) (Reg.ofByte b3)
    exact ⟨hwf.trans (wellFormedByte_ofByte b3),
      henc.trans (by rw [encodeWR, index_ofByte, loByte_wordOf, hiByte_wordOf])⟩
  | rs f =>
    obtain ⟨b1, b2, rfl⟩ := List.length_eq_two.1 hlen
    obtain ⟨hwf, henc⟩ := h (Reg.ofByte b1) b2
    exact ⟨hwf.trans (wellFormedByte_ofByte b1), henc.trans (by rw [encodeRS, index_ofByte])⟩
  | w f =>
    obtain ⟨b1, b2, rfl⟩ := List.length_eq_two.1 hlen
    obtain ⟨hwf, henc⟩ := h (wordOf b1 b2)
    exact ⟨hwf, henc.trans (by rw [encodeW, loByte_wordOf, hiByte_wordOf])⟩

/-- Settles O5: what decodes was built by a format of the opcode map, and the encoder gives the format's bytes back. -/
theorem encodeOfDecode : Obligations.EncodeOfDecode := by
  unfold Obligations.EncodeOfDecode
  intro bytes rest i h
  obtain ⟨op, sh, ops, hsh, hlen, rfl, rfl⟩ := decode_cases h
  obtain ⟨hwf, henc⟩ := encode_build (encodesAs_of_shapeOf hsh) hlen
  exact ⟨hwf, by rw [henc]⟩

/-! ### The opcodes without an instruction (R99, R136, R141) -/

/-- R99: the ranges are what the 33 rows of the opcode map leave out. -/
theorem shapeOf_eq_none_iff (op : Byte) : shapeOf op = none ↔ illegalOpcode op.toNat := by
  have hlt : op.toNat < 0x100 := op.isLt
  unfold shapeOf illegalOpcode
  split
  case h_34 =>
    simp only [true_iff, imp_false] at *
    omega
  all_goals
    simp only [reduceCtorEq, false_iff]
    omega

/-- A fetch that finds an illegal opcode ends after the tick, with no operand byte read. -/
theorem fetch_of_shapeOf_none {s : State} (hr : readReady s s.pc = true) (hop : shapeOf (byteAt s s.pc) = none) :
    fetch s = .unknown (afterFetch s (s.pc + 1#16) (inputAfterByte s s.pc)) := by
  rw [fetch_eq, if_pos hr, hop, afterFetch]

theorem step_of_fetch_unknown {s s1 : State} (hs : s.halted = false) (hf : fetch s = .unknown s1) :
    step s = .next (raiseFatal .unknownOpcode s1) := by
  simp [step, hs, hf]

/-- Settles O3: the opcode map for the ranges, the fetch and `raiseFatal` for the step. -/
theorem unknownOpcodeStep : Obligations.UnknownOpcodeStep := by
  unfold Obligations.UnknownOpcodeStep
  refine ⟨shapeOf_eq_none_iff, fun s hs hr hop => ?_⟩
  have hfetch := fetch_of_shapeOf_none hr ((shapeOf_eq_none_iff _).2 hop)
  rw [step_of_fetch_unknown hs hfetch, raiseFatal, afterFetch]

end Sys2Proof.Machine

/-! ## What a fetch does, byte by byte (spec/40_execution_cycle.md R131 to R134, R141)

The two states a fetch passes through are named, and `fetch_ends` says in their terms how it can end. -/

namespace Sys2Proof.Machine

/-! ### The states of a fetch -/

/-- The opcode byte is taken and the timer has ticked; the operand bytes are read from here (R132, R133). -/
def opcodeTaken (s : State) : State := afterFetch s (s.pc + 1#16) (inputAfterByte s s.pc)

/-- `n` operand bytes are taken too; the instruction executes from here (R134). -/
def operandsTaken (s : State) (n : Nat) : State :=
  afterFetch s (s.pc + BitVec.ofNat 16 (1 + n)) (inputAfterBytes (opcodeTaken s) (s.pc + 1#16) n)

/-- The operand bytes that a fetch finds for this format. -/
def operandsFound (s : State) (sh : Shape) : List Byte := bytesFound (opcodeTaken s) (s.pc + 1#16) sh.operandBytes

/-- None of the operand bytes of this format waits. -/
def operandsReady (s : State) (sh : Shape) : Bool := bytesReady (opcodeTaken s) (s.pc + 1#16) sh.operandBytes

theorem operandsFound_length (s : State) (sh : Shape) : (operandsFound s sh).length = sh.operandBytes :=
  bytesFound_length _ _ _

theorem cursor_past_operands (pc : Word) (n : Nat) : pc + 1#16 + BitVec.ofNat 16 n = pc + BitVec.ofNat 16 (1 + n) := by
  rw [BitVec.add_assoc, BitVec.ofNat_add]

/-- The operand bytes of a format, fetched after the opcode. -/
theorem fetchBytes_opcodeTaken (s : State) (sh : Shape) :
    fetchBytes sh.operandBytes (opcodeTaken s) =
      if operandsReady s sh = true then some (operandsFound s sh, operandsTaken s sh.operandBytes) else none := by
  have hstate : operandsTaken s sh.operandBytes =
      { opcodeTaken s with
        cursor := s.pc + 1#16 + BitVec.ofNat 16 sh.operandBytes
        input := inputAfterBytes (opcodeTaken s) (s.pc + 1#16) sh.operandBytes } := by
    rw [cursor_past_operands]; rfl
  rw [hstate]
  exact fetchBytes_eq _ (operandBytes_le sh) (opcodeTaken s)

/-- The bytes of one fetch are one run, so at most one of them is STDIN's. -/
theorem operandsTaken_input (s : State) (sh : Shape) :
    (operandsTaken s sh.operandBytes).input = inputAfterBytes s s.pc (sh.operandBytes + 1) :=
  inputAfterBytes_afterByte s (operandBytes_le sh) s.pc _ _

/-! ### How a fetch ends -/

section
variable {s : State}

theorem fetch_of_opcode_waits (h : readReady s s.pc = false) : fetch s = .waits := by
  rw [fetch_eq, if_neg (by simp [h])]

/-- A legal opcode leaves the end of the fetch to its operands. -/
theorem fetch_of_shapeOf_some {sh : Shape} (hr : readReady s s.pc = true) (hop : shapeOf (byteAt s s.pc) = some sh) :
    fetch s = fetchOperands sh (opcodeTaken s) := by
  rw [fetch_eq, if_pos hr, hop]
  rfl

theorem fetch_of_operands_wait {sh : Shape} (hr : readReady s s.pc = true) (hop : shapeOf (byteAt s s.pc) = some sh)
    (hb : operandsReady s sh = false) : fetch s = .waits := by
  rw [fetch_of_shapeOf_some hr hop, fetchOperands, fetchBytes_opcodeTaken, if_neg (by simp [hb])]

theorem fetch_of_operands_ready {sh : Shape} (hr : readReady s s.pc = true) (hop : shapeOf (byteAt s s.pc) = some sh)
    (hb : operandsReady s sh = true) :
    fetch s = .fetched (sh.build (operandsFound s sh)) (operandsTaken s sh.operandBytes) := by
  rw [fetch_of_shapeOf_some hr hop, fetchOperands, fetchBytes_opcodeTaken, if_pos hb]

end

/-- How a fetch that begins in `s` can end: its opcode byte waits; it meets an illegal opcode; an operand byte waits; or it
gives the instruction that the format of the opcode builds of the bytes found. -/
inductive FetchEnds (s : State) : Fetched → Prop where
  | opcodeWaits (hr : readReady s s.pc = false) : FetchEnds s .waits
  | unknown (hr : readReady s s.pc = true) (hop : shapeOf (byteAt s s.pc) = none) :
      FetchEnds s (.unknown (opcodeTaken s))
  | operandsWait (sh : Shape) (hr : readReady s s.pc = true) (hop : shapeOf (byteAt s s.pc) = some sh)
      (hb : operandsReady s sh = false) : FetchEnds s .waits
  | fetched (sh : Shape) (hr : readReady s s.pc = true) (hop : shapeOf (byteAt s s.pc) = some sh)
      (hb : operandsReady s sh = true) :
      FetchEnds s (.fetched (sh.build (operandsFound s sh)) (operandsTaken s sh.operandBytes))

/-- THE INVERSION OF `fetch`. -/
theorem fetch_ends (s : State) : FetchEnds s (fetch s) := by
  cases hr : readReady s s.pc with
  | false => rw [fetch_of_opcode_waits hr]; exact .opcodeWaits hr
  | true =>
    cases hop : shapeOf (byteAt s s.pc) with
    | none => rw [fetch_of_shapeOf_none hr hop]; exact .unknown hr hop
    | some sh =>
      cases hb : operandsReady s sh with
      | false => rw [fetch_of_operands_wait hr hop hb]; exact .operandsWait sh hr hop hb
      | true => rw [fetch_of_operands_ready hr hop hb]; exact .fetched sh hr hop hb

theorem fetchEnds_of_eq {s : State} {f : Fetched} (h : fetch s = f) : FetchEnds s f := h ▸ fetch_ends s

/-- What a fetch gives is the instruction whose encoding it found. -/
theorem encode_fetched {s : State} {sh : Shape} (hop : shapeOf (byteAt s s.pc) = some sh) :
    (sh.build (operandsFound s sh)).wellFormed = true ∧
      encode (sh.build (operandsFound s sh)) = byteAt s s.pc :: operandsFound s sh :=
  encode_build (encodesAs_of_shapeOf hop) (operandsFound_length s sh)

theorem encode_fetched_length {s : State} {sh : Shape} (hop : shapeOf (byteAt s s.pc) = some sh) :
    (encode (sh.build (operandsFound s sh))).length = 1 + sh.operandBytes := by
  obtain ⟨-, henc⟩ := encode_fetched hop
  rw [henc, List.length_cons, operandsFound_length, Nat.add_comm]

/-- Settles O44: the inversion of `fetch`, with the length of the encoding found and the input of one run of bytes. -/
theorem fetchTicksOnce : Obligations.FetchTicksOnce := by
  unfold Obligations.FetchTicksOnce
  refine fun s => ⟨fun i s1 h => ?fetched, fun s1 h => ?unknown⟩
  case fetched =>
    cases fetchEnds_of_eq h with
    | fetched sh hr hop hb =>
      obtain ⟨hwf, -⟩ := encode_fetched hop
      obtain ⟨n, hn, hinput⟩ := inputAfterBytes_eq_drop s s.pc (sh.operandBytes + 1)
      refine ⟨hwf, n, hn, ?_⟩
      rw [encode_fetched_length hop, ← hinput, ← operandsTaken_input]
      rfl
  case unknown =>
    cases fetchEnds_of_eq h with
    | unknown hr hop =>
      obtain ⟨n, hn, hinput⟩ := inputAfterBytes_eq_drop s s.pc 1
      refine ⟨n, hn, ?_⟩
      rw [← hinput]
      rfl

end Sys2Proof.Machine

/-! ## The step by what was fetched (spec/40_execution_cycle.md R131 to R134, R140, R142) -/

namespace Sys2Proof.Machine

section
variable {s : State}

theorem step_of_halted (hs : s.halted = true) : step s = .next (alreadyHalted s) := by
  rw [step, if_pos hs]

theorem step_of_fetch_waits (hs : s.halted = false) (hf : fetch s = .waits) : step s = .next (awaitInput s) := by
  simp [step, hs, hf]

theorem step_of_fetched {s1 : State} {i : Instr} (hs : s.halted = false) (hf : fetch s = .fetched i s1) :
    step s = settle s (exec i s1) := by
  simp [step, hs, hf]

/-- A step answers what its execution answers, unless that waits. -/
theorem step_of_exec {s1 t : State} {i : Instr} (hstep : step s = settle s (exec i s1)) (ht : exec i s1 = .next t) :
    (t.lastStep ≠ .waiting → step s = .next t) ∧ (t.lastStep = .waiting → step s = .next (awaitInput s)) := by
  rw [hstep, ht, settle_next]
  exact ⟨fun h => if_neg h, fun h => if_pos h⟩

end

/-- Settles O43: a step on a halted core is `alreadyHalted`, and leaves the core halted. -/
theorem haltedStepDoesNothing : Obligations.HaltedStepDoesNothing := by
  unfold Obligations.HaltedStepDoesNothing
  exact fun s hs => ⟨step_of_halted hs, step_of_halted (s := alreadyHalted s) hs⟩

/-! ### The instruction that the bytes decode to -/

/-- What `decode` makes of an opcode byte and the bytes after it: the format of the opcode builds the instruction of as many
bytes as it asks for, and the rest stays. -/
theorem shapeOf_of_decode {op : Byte} {tail rest : List Byte} {i : Instr} (h : decode (op :: tail) = .ok (i, rest)) :
    ∃ sh, shapeOf op = some sh ∧ tail.length = sh.operandBytes + rest.length ∧
      i = sh.build (tail.take sh.operandBytes) := by
  obtain ⟨op', sh, ops, hop, hlen, rfl, hbytes⟩ := decode_cases h
  obtain ⟨rfl, htail⟩ := List.cons.inj hbytes
  have happend : tail = ops ++ rest := htail
  exact ⟨sh, hop, by rw [happend, List.length_append, hlen], by rw [happend, ← hlen, List.take_left]⟩

/-- The bytes found, from memory or through the ports, decode to what the fetch builds of them. -/
theorem shapeOf_of_decode_found {s : State} {i : Instr} {rest : List Byte}
    (h : decode (byteAt s s.pc :: bytesFound (opcodeTaken s) (s.pc + 1#16) 3) = .ok (i, rest)) :
    ∃ sh, shapeOf (byteAt s s.pc) = some sh ∧ sh.operandBytes = 3 - rest.length ∧ i = sh.build (operandsFound s sh) := by
  obtain ⟨sh, hop, hlen, hi⟩ := shapeOf_of_decode h
  rw [bytesFound_length] at hlen
  rw [hlen, bytesFound_take] at hi
  exact ⟨sh, hop, by omega, hi⟩

/-- An instruction away from the ports is fetched from memory, and takes no input. -/
theorem fetch_of_memory {s : State} {sh : Shape} (hop : shapeOf (s.mem.read s.pc.toNat) = some sh)
    (hram : noPortIn s.pc (sh.operandBytes + 1) = true) :
    fetch s = .fetched (sh.build (bytesAt s (s.pc + 1#16) sh.operandBytes))
      { s with cursor := s.pc + BitVec.ofNat 16 (1 + sh.operandBytes), timerValue := ticked s } := by
  obtain ⟨hopRam, hopsRam⟩ := (noPortIn_succ _ _).1 hram
  obtain ⟨hready, hbyte, -⟩ := read_ram s s.pc hopRam
  obtain ⟨hfound, hopsReady, -⟩ := bytesFound_ram _ (opcodeTaken s) _ hopsRam
  obtain ⟨-, -, hrun⟩ := bytesFound_ram _ s _ hram
  have hbytes : operandsFound s sh = bytesAt s (s.pc + 1#16) sh.operandBytes :=
    hfound.trans (bytesAt_of_mem _ (opcodeTaken s) s _ rfl)
  have hinput : (operandsTaken s sh.operandBytes).input = s.input := (operandsTaken_input s sh).trans hrun
  rw [fetch_of_operands_ready hready (hbyte ▸ hop) hopsReady, hbytes, ← hinput]
  rfl

/-- The bytes of memory, those of the instruction away from the ports, decode to what is fetched. -/
theorem fetch_of_decode_memory {s : State} {i : Instr} {rest : List Byte}
    (h : decode (bytesAt s s.pc 4) = .ok (i, rest)) (hram : noPortIn s.pc (4 - rest.length) = true) :
    fetch s = .fetched i
      { s with cursor := s.pc + BitVec.ofNat 16 (4 - rest.length), timerValue := ticked s } := by
  change decode (s.mem.read s.pc.toNat :: bytesAt s (s.pc + 1#16) 3) = .ok (i, rest) at h
  obtain ⟨sh, hop, hlen, rfl⟩ := shapeOf_of_decode h
  rw [bytesAt_length] at hlen
  have hcount : 4 - rest.length = 1 + sh.operandBytes := by omega
  rw [hcount] at hram ⊢
  rw [Nat.add_comm] at hram
  rw [hlen, bytesAt_take]
  exact fetch_of_memory hop hram

/-- Settles O42: the bytes found decode to what the fetch builds of them, and the step executes that. -/
theorem stepRunsDecoded : Obligations.StepRunsDecoded := by
  unfold Obligations.StepRunsDecoded
  intro s hs
  refine ⟨fun hr => ?opcodeWaits, fun i rest hr hdec => ?found, fun i rest hdec hram => ?memory⟩
  case opcodeWaits => exact step_of_fetch_waits hs (fetch_of_opcode_waits hr)
  case found =>
    obtain ⟨sh, hop, hn, rfl⟩ := shapeOf_of_decode_found hdec
    obtain ⟨hwf, -⟩ := encode_fetched hop
    rw [← hn]
    refine ⟨hwf, encode_fetched_length hop, fun hb => ?waits, fun hb => ?runs⟩
    case waits => exact step_of_fetch_waits hs (fetch_of_operands_wait hr hop hb)
    case runs =>
      have hstep := step_of_fetched hs (fetch_of_operands_ready hr hop hb)
      exact ⟨hstep, fun t ht => step_of_exec hstep ht⟩
  case memory =>
    have hfetch := fetch_of_decode_memory hdec hram
    obtain ⟨hfetched, -⟩ := fetchTicksOnce s
    obtain ⟨hwf, -⟩ := hfetched i _ hfetch
    have hstep := step_of_fetched hs hfetch
    exact ⟨hwf, hstep, fun t ht => step_of_exec hstep ht⟩

end Sys2Proof.Machine

/-! ## Every step answers, and a step that waits can be taken again (R130, R142, R312) -/

namespace Sys2Proof.Machine

/-! ### Answers -/

/-- No step ends in a fault or a refusal. -/
theorem step_answers (s : State) : ∃ t, step s = .next t := by
  cases hs : s.halted with
  | true => exact ⟨_, step_of_halted hs⟩
  | false =>
    cases hf : fetch s with
    | waits => exact ⟨_, step_of_fetch_waits hs hf⟩
    | unknown s1 => exact ⟨_, step_of_fetch_unknown hs hf⟩
    | fetched i s1 =>
      obtain ⟨t, ht, -⟩ := exec_ends i s1
      rw [step_of_fetched hs hf, ht, settle_next]
      split
      case isTrue => exact ⟨_, rfl⟩
      case isFalse => exact ⟨_, rfl⟩

/-- R130: each of the ways a step can end names its outcome. -/
theorem lastStep_of_step {s t : State} (h : step s = .next t) : t.lastStep ≠ .notStepped := by
  cases step_ends h with
  | alreadyHalted | waits | fatal | halts | retires => simp

/-- Settles O45: fetch and execution always answer, and each end of a step names its outcome. -/
theorem stepAnswersNext : Obligations.StepAnswersNext := by
  unfold Obligations.StepAnswersNext
  intro s
  obtain ⟨t, ht⟩ := step_answers s
  exact ⟨t, ht, lastStep_of_step ht⟩

/-! ### When a step waits -/

theorem inputReady_of_not_bytesReady {s : State} {addr : Word} {n : Nat} (h : bytesReady s addr n = false) :
    inputReady s = false := by
  induction n generalizing addr with
  | zero => cases h
  | succ n ih =>
    rw [bytesReady, Bool.and_eq_false_iff] at h
    rcases h with hfirst | hrest
    · exact inputReady_of_not_readReady (addr := addr) (by simp [hfirst])
    · exact ih hrest

/-- The host has signalled no end of input and has at most one byte supplied: all that is left when a byte was taken and the
next read waits. -/
def InputShort (s : State) : Prop := s.inputEnded = false ∧ s.input.length ≤ 1

theorem inputShort_of_taken {s s1 : State} (h : StreamsMoved 0 1 s s1) (hr : inputReady s1 = false) : InputShort s := by
  obtain ⟨n, hn, hinput⟩ := h.input
  obtain ⟨hempty, hended⟩ : s1.input = [] ∧ s1.inputEnded = false := by simpa [inputReady] using hr
  have hlen : s.input.length ≤ n := List.drop_eq_nil_iff.1 (hinput.symm.trans hempty)
  exact ⟨h.inputEnded.symm.trans hended, by omega⟩

theorem inputShort_of_fetch_waits {s : State} (h : fetch s = .waits) : InputShort s := by
  cases fetchEnds_of_eq h with
  | opcodeWaits hr =>
    exact inputShort_of_taken (.of_eq rfl rfl rfl) (inputReady_of_not_readReady (addr := s.pc) (by simp [hr]))
  | operandsWait sh hr hop hb =>
    have hopcode : StreamsMoved 0 1 s (opcodeTaken s) := .of_afterFetch (n := 1) rfl
    exact inputShort_of_taken hopcode (inputReady_of_not_bytesReady hb)

/-- R142, R312: a step that waits has taken everything back, and waits for want of input. -/
theorem awaitInput_of_step_waits {s t : State} (h : step s = .next t) (hw : t.lastStep = .waiting) :
    t = awaitInput s ∧ InputShort s := by
  rcases step_cases s t h with ⟨-, rfl⟩ | ⟨-, hf, rfl⟩ | ⟨s1, -, -, rfl⟩ | ⟨i, s1, -, hf, -, hr, rfl⟩ |
    ⟨i, s1, -, -, -, -, hl⟩
  · simp at hw
  · exact ⟨rfl, inputShort_of_fetch_waits hf⟩
  · simp at hw
  · exact ⟨rfl, inputShort_of_taken (streamsMoved_of_fetched hf) hr⟩
  · exact absurd hw hl

/-! ### No step reads the outcome of the step before it

Each operation is followed from `awaitInput s`, which is `s` but for its outcome: reads find the same, updates keep the
difference, and the ends of an execution remove it. -/

section
variable (s : State)

@[simp] theorem readReg_awaitInput (r : Reg) : readReg (awaitInput s) r = readReg s r := by cases r <;> rfl

@[simp] theorem writeReg_awaitInput (r : Reg) (v : Word) :
    writeReg (awaitInput s) r v = awaitInput (writeReg s r v) := by cases r <;> rfl

@[simp] theorem setFlags_awaitInput (r : Alu) : setFlags (awaitInput s) r = awaitInput (setFlags s r) := rfl

@[simp] theorem jumpTo_awaitInput (target : Word) : jumpTo (awaitInput s) target = awaitInput (jumpTo s target) := rfl

@[simp] theorem writeByte_awaitInput (addr : Word) (v : Byte) :
    writeByte (awaitInput s) addr v = awaitInput (writeByte s addr v) := by
  rw [writeByte_eq, writeByte_eq]
  rfl

@[simp] theorem writeWord_awaitInput (addr v : Word) :
    writeWord (awaitInput s) addr v = awaitInput (writeWord s addr v) := by
  simp [writeWord]

@[simp] theorem push_awaitInput (v : Word) : push (awaitInput s) v = awaitInput (push s v) := by
  rw [push_eq, push_eq, State.awaitInput_sp, writeWord_awaitInput]
  rfl

@[simp] theorem retire_awaitInput : retire (awaitInput s) = retire s := rfl

@[simp] theorem halt_awaitInput : halt (awaitInput s) = halt s := rfl

@[simp] theorem raiseFatal_awaitInput (kind : RuntimeError) : raiseFatal kind (awaitInput s) = raiseFatal kind s := rfl

@[simp] theorem alreadyHalted_awaitInput : alreadyHalted (awaitInput s) = alreadyHalted s := rfl

@[simp] theorem awaitInput_awaitInput : awaitInput (awaitInput s) = awaitInput s := rfl

/-! #### Reads -/

theorem readByte_awaitInput (addr : Word) :
    readByte (awaitInput s) addr = (readByte s addr).map (Prod.map id awaitInput) := by
  rw [readByte_eq, readByte_eq s, apply_ite (Option.map _)]
  rfl

theorem readWord_awaitInput (addr : Word) :
    readWord (awaitInput s) addr = (readWord s addr).map (Prod.map id awaitInput) := by
  rw [readWord_eq, readWord_eq s, apply_ite (Option.map _)]
  rfl

theorem pop_awaitInput : pop (awaitInput s) = (pop s).map (Prod.map id awaitInput) := by
  rw [pop_eq, pop_eq s, apply_ite (Option.map _)]
  rfl

/-! #### Executions -/

theorem retireAlu_awaitInput (rd : Reg) (r : Alu) : retireAlu (awaitInput s) rd r = retireAlu s rd r := by
  simp [retireAlu]

theorem retireCompare_awaitInput (r : Alu) : retireCompare (awaitInput s) r = retireCompare s r := by
  simp [retireCompare]

theorem retireJump_awaitInput (taken : Bool) (addr : Word) :
    retireJump (awaitInput s) taken addr = retireJump s taken addr := by
  cases taken with
  | false | true => rfl

theorem exec_awaitInput (i : Instr) : exec i (awaitInput s) = exec i s := by
  cases i with
  | nop | hlt => rfl
  | loadImm | mov | store | push | call | outPort =>
    simp [exec, execLoadImm, execMov, execStore, execPush, execCall, execOut]
  | add | addi | sub | subi | mul | inc | dec =>
    simp only [exec, execAdd, execAddi, execSub, execSubi, execMul, execInc, execDec, readReg_awaitInput,
      retireAlu_awaitInput]
  | and | or | xor | not | shl | shr =>
    simp only [exec, execAnd, execOr, execXor, execNot, execShl, execShr, readReg_awaitInput, retireAlu_awaitInput]
  | div => simp [exec, execDiv]
  | cmp | cmpi => simp only [exec, execCmp, execCmpi, readReg_awaitInput, retireCompare_awaitInput]
  | jmp | jz | jnz | jc | jnc => exact retireJump_awaitInput s _ _
  | loadMem r addr =>
    simp only [exec, execLoadMem, readWord_awaitInput]
    cases readWord s addr with
    | none => rfl
    | some found => simp
  | pop r =>
    simp only [exec, execPop, pop_awaitInput]
    cases pop s with
    | none => rfl
    | some found => simp
  | ret =>
    simp only [exec, execRet, pop_awaitInput]
    cases pop s with
    | none => rfl
    | some found => simp
  | inPort r port =>
    simp only [exec, execIn, readByte_awaitInput]
    cases readByte s port with
    | none => rfl
    | some found => simp

/-! #### The step -/

/-- What a fetch gives, with its state as after a step that waited. -/
def Fetched.awaited : Fetched → Fetched
  | .waits => .waits
  | .unknown s => .unknown (awaitInput s)
  | .fetched i s => .fetched i (awaitInput s)

theorem operandsReady_awaitInput (sh : Shape) : operandsReady (awaitInput s) sh = operandsReady s sh :=
  bytesReady_of_eq _ (opcodeTaken s) (opcodeTaken (awaitInput s)) _ rfl rfl

theorem operandsFound_awaitInput (sh : Shape) : operandsFound (awaitInput s) sh = operandsFound s sh :=
  bytesFound_of_eq _ (opcodeTaken s) (opcodeTaken (awaitInput s)) _ rfl rfl rfl rfl

theorem operandsTaken_awaitInput (n : Nat) : operandsTaken (awaitInput s) n = awaitInput (operandsTaken s n) := by
  have hinput := inputAfterBytes_of_eq n (opcodeTaken s) (opcodeTaken (awaitInput s)) (s.pc + 1#16) rfl
  rw [operandsTaken, State.awaitInput_pc, hinput]
  rfl

theorem fetch_awaitInput : fetch (awaitInput s) = (fetch s).awaited := by
  cases h : fetch s with
  | waits =>
    cases fetchEnds_of_eq h with
    | opcodeWaits hr => exact fetch_of_opcode_waits (s := awaitInput s) hr
    | operandsWait sh hr hop hb =>
      exact fetch_of_operands_wait (s := awaitInput s) hr hop ((operandsReady_awaitInput s sh).trans hb)
  | unknown s1 =>
    cases fetchEnds_of_eq h with
    | unknown hr hop => exact fetch_of_shapeOf_none (s := awaitInput s) hr hop
  | fetched i s1 =>
    cases fetchEnds_of_eq h with
    | fetched sh hr hop hb =>
      have hfetch := fetch_of_operands_ready (s := awaitInput s) hr hop ((operandsReady_awaitInput s sh).trans hb)
      rwa [operandsFound_awaitInput, operandsTaken_awaitInput] at hfetch

theorem settle_awaitInput (r : Result) : settle (awaitInput s) r = settle s r := by
  cases r with
  | next | fault | refused => rfl

/-- A step does not see that the step before it waited. -/
theorem step_awaitInput : step (awaitInput s) = step s := by
  unfold step
  rw [fetch_awaitInput, State.awaitInput_halted, alreadyHalted_awaitInput, awaitInput_awaitInput]
  cases fetch s with
  | waits | unknown => rfl
  | fetched i s1 => simp only [Fetched.awaited, exec_awaitInput, settle_awaitInput]

/-! #### The host's actions after a wait -/

theorem supplyInput_awaitInput (bytes : List Byte) :
    supplyInput (awaitInput s) bytes = awaitInput (supplyInput s bytes) := by
  rw [supplyInput, supplyInput, apply_ite awaitInput]
  rfl

theorem endInput_awaitInput : endInput (awaitInput s) = awaitInput (endInput s) := rfl

end

/-- Settles O53: a step that waits answers `awaitInput s`, from which the host's next action and the next step lead where
they lead from `s`. -/
theorem waitingStepResumes : Obligations.WaitingStepResumes := by
  unfold Obligations.WaitingStepResumes
  refine ⟨fun s t h hw => ?waits, fun s hinput => ?goesOn⟩
  case waits =>
    obtain ⟨rfl, hended, hlen⟩ := awaitInput_of_step_waits h hw
    refine ⟨rfl, hended, hlen, fun bytes => ?_, ?_⟩
    · rw [supplyInput_awaitInput, step_awaitInput]
    · rw [endInput_awaitInput, step_awaitInput]
  case goesOn =>
    obtain ⟨t, ht⟩ := step_answers s
    refine ⟨t, ht, fun hw => ?_⟩
    obtain ⟨-, hended, hlen⟩ := awaitInput_of_step_waits ht hw
    rcases hinput with htwo | hend
    · omega
    · simp [hended] at hend

end Sys2Proof.Machine

/-! ## Where an executed instruction goes on (spec/40_execution_cycle.md R137, R138, spec/45_control_transfer.md R230) -/

namespace Sys2Proof.Machine

/-! ### The cursor moves by control transfers alone -/

@[simp] theorem writeByte_cursor (s : State) (addr : Word) (v : Byte) : (writeByte s addr v).cursor = s.cursor := by
  rw [writeByte_eq]

@[simp] theorem writeWord_cursor (s : State) (addr v : Word) : (writeWord s addr v).cursor = s.cursor := by
  simp [writeWord]

@[simp] theorem push_cursor (s : State) (v : Word) : (push s v).cursor = s.cursor := by
  simp [push]

section
variable {s s1 t : State}

theorem readByte_cursor {addr : Word} {v : Byte} (h : readByte s addr = some (v, s1)) : s1.cursor = s.cursor := by
  rw [readByte_eq] at h
  split at h
  case isTrue => cases h; rfl
  case isFalse => cases h

theorem readWord_cursor {addr v : Word} (h : readWord s addr = some (v, s1)) : s1.cursor = s.cursor := by
  rw [readWord_eq] at h
  split at h
  case isTrue => cases h; rfl
  case isFalse => cases h

theorem pop_cursor {v : Word} (h : pop s = some (v, s1)) : s1.cursor = s.cursor := by
  rw [pop_eq] at h
  split at h
  case isTrue => cases h; rfl
  case isFalse => cases h

theorem execLoadMem_cursor {r : Reg} {addr : Word} (h : execLoadMem r addr s = .next t) : t.cursor = s.cursor := by
  unfold execLoadMem at h
  split at h
  case h_1 => cases h; rfl
  case h_2 v s1 hread => cases h; simp [readWord_cursor hread]

theorem execPop_cursor {r : Reg} (h : execPop r s = .next t) : t.cursor = s.cursor := by
  unfold execPop at h
  split at h
  case h_1 => cases h; rfl
  case h_2 v s1 hpop => cases h; simp [pop_cursor hpop]

theorem execIn_cursor {r : Reg} {port : Word} (h : execIn r port s = .next t) : t.cursor = s.cursor := by
  unfold execIn at h
  split at h
  case h_1 => cases h; rfl
  case h_2 v s1 hread => cases h; simp [readByte_cursor hread]

theorem execDiv_cursor {rd rs : Reg} (h : execDiv rd rs s = .next t) : t.cursor = s.cursor := by
  simp only [execDiv] at h
  split at h
  case isTrue => cases h; rfl
  case isFalse => cases h; simp

theorem retireAlu_cursor {rd : Reg} {r : Alu} (h : retireAlu s rd r = .next t) : t.cursor = s.cursor := by
  cases h
  simp

/-- R230: only a control transfer sets the cursor. -/
theorem exec_cursor {i : Instr} (h : exec i s = .next t) (hi : transfers i = false) : t.cursor = s.cursor := by
  cases i with
  | nop | hlt | cmp | cmpi => cases h; rfl
  | loadImm | mov => cases h; exact State.writeReg_cursor s _ _
  | store => cases h; exact writeWord_cursor s _ _
  | push => cases h; exact push_cursor s _
  | outPort => cases h; exact writeByte_cursor s _ _
  | loadMem => exact execLoadMem_cursor h
  | pop => exact execPop_cursor h
  | inPort => exact execIn_cursor h
  | div => exact execDiv_cursor h
  | add | addi | sub | subi | mul | inc | dec | and | or | xor | not | shl | shr => exact retireAlu_cursor h
  | jmp | jz | jnz | jc | jnc | call | ret => cases hi

/-- R137: an execution other than HLT that ends with `executed` has made the writeback. -/
theorem retires_of_executed {i : Instr} (h : exec i s = .next t) (hi : i ≠ .hlt) (hl : t.lastStep = .executed) :
    ∃ u, Touched s u ∧ t = retire u := by
  cases ends_of_exec h with
  | waits | divideByZero => simp at hl
  | halts hhlt => exact absurd hhlt hi
  | retires u hu => exact ⟨u, hu, rfl⟩

end

/-- Settles O55: the writeback takes `PC` from the cursor, which the execution has left. -/
theorem onlyTransfersRedirect : Obligations.OnlyTransfersRedirect := by
  unfold Obligations.OnlyTransfersRedirect
  intro i s t h hi hl htransfer
  have hcursor := exec_cursor h htransfer
  obtain ⟨u, hu, rfl⟩ := retires_of_executed h hi hl
  exact ⟨hcursor, congrArg (· + 1#64) hu.cycles⟩

end Sys2Proof.Machine

/-! ## Data movement and the stack (spec/41_data_movement.md), NOP and the jumps (spec/45_control_transfer.md)

Each execution is one operation of the state followed by the writeback. The operations are described first: what a word
write or a push leaves alone, what a word read away from the ports finds, what `PC` and the count become. -/

namespace Sys2Proof.Machine

/-! ### Stores and pushes -/

section
variable {s t : State}

/-- Registers and run state are no part of what a word store is about. -/
theorem WordStored.setSp {addr v : Word} (h : WordStored s t addr v) (sp : Word) : WordStored s (setSp t sp) addr v :=
  { h with }

theorem WordStored.retire {addr v : Word} (h : WordStored s t addr v) : WordStored s (retire t) addr v :=
  { h with }

theorem sameInside.setSp (h : sameInside s t) (sp : Word) : sameInside s (setSp t sp) := h

theorem sameInside.retire (h : sameInside s t) : sameInside s (retire t) := h

variable (s)

theorem writeWord_sameInside (addr v : Word) : sameInside s (writeWord s addr v) := by
  simp [sameInside, writeWord, writeByte_eq]

@[simp] theorem writeWord_sp (addr v : Word) : (writeWord s addr v).sp = s.sp := by
  simp [writeWord, writeByte_eq]

@[simp] theorem writeWord_cycles (addr v : Word) : (writeWord s addr v).cycles = s.cycles :=
  (Touched.writeWord s addr v).cycles

/-- R160: a push is a word write at the new `SP`. -/
theorem push_eq_setSp (v : Word) : push s v = setSp (writeWord s (s.sp - 2#16) v) (s.sp - 2#16) :=
  push_eq s v

theorem push_stored (v : Word) : WordStored s (push s v) (s.sp - 2#16) v := by
  rw [push_eq_setSp]
  exact (writeWord_stored s _ v).setSp _

theorem push_sameInside (v : Word) : sameInside s (push s v) := by
  rw [push_eq_setSp]
  exact (writeWord_sameInside s _ v).setSp _

@[simp] theorem push_sp (v : Word) : (push s v).sp = s.sp - 2#16 := by
  rw [push_eq_setSp, State.setSp_sp]

@[simp] theorem push_cycles (v : Word) : (push s v).cycles = s.cycles :=
  (Touched.push s v).cycles

end

/-- STORE (R165). -/
theorem exec_store (addr : Word) (r : Reg) (s : State) :
    exec (.store addr r) s = .next (retire (writeWord s addr (readReg s r))) := rfl

/-- PUSH (R167). -/
theorem exec_push (r : Reg) (s : State) : exec (.push r) s = .next (retire (push s (readReg s r))) := rfl

/-- Settles O30: a word write, whose bytes and frame are known, and the writeback. -/
theorem storeInstruction : Obligations.StoreInstruction := by
  unfold Obligations.StoreInstruction
  intro addr r s
  refine ⟨_, exec_store addr r s, (writeWord_stored s addr _).retire, (writeWord_sameInside s addr _).retire, ?sp, ?pc,
    ?cycles, State.retire_lastStep _⟩
  case sp => rw [State.retire_sp, writeWord_sp]
  case pc => rw [State.retire_pc, writeWord_cursor]
  case cycles => rw [State.retire_cycles, writeWord_cycles]

/-- Settles O31: the word write is that of the push, of the value read before `SP` moves. -/
theorem pushInstruction : Obligations.PushInstruction := by
  unfold Obligations.PushInstruction
  intro r s
  refine ⟨_, exec_push r s, (push_stored s _).retire, (push_sameInside s _).retire, ?sp, ?pc, ?cycles,
    State.retire_lastStep _⟩
  case sp => rw [State.retire_sp, push_sp]
  case pc => rw [State.retire_pc, push_cursor]
  case cycles => rw [State.retire_cycles, push_cycles]

/-! ### Instructions that write one register operand -/

/-- R137: a register write and the writeback; the register written may be `PC`, whose value is then lost. -/
theorem retire_writeReg (s : State) (r : Reg) (v : Word) : retire (writeReg s r v) = completed s (writeReg s r v) :=
  retire_eq_completed s _ (State.writeReg_cursor s r v) (State.writeReg_cycles s r v)

/-- LOAD r,imm (R163). -/
theorem exec_loadImm (r : Reg) (imm : Word) (s : State) :
    exec (.loadImm r imm) s = .next (completed s (writeReg s r imm)) :=
  congrArg Host.Outcome.next (retire_writeReg s r imm)

/-- MOV (R166). -/
theorem exec_mov (rd rs : Reg) (s : State) :
    exec (.mov rd rs) s = .next (completed s (writeReg s rd (readReg s rs))) :=
  congrArg Host.Outcome.next (retire_writeReg s rd _)

/-- R5: an index above 5 reads 0. -/
theorem readReg_ofByte_of_ge (s : State) {n : Byte} (h : 6 ≤ n.toNat) : readReg s (Reg.ofByte n) = 0x0000#16 := by
  rw [ofByte_of_ge n h, readReg]

/-- R138: a value written to `PC` is lost in the writeback. -/
theorem completed_writeReg_pc (s : State) (v : Word) : completed s (writeReg s .pc v) = completed s s := rfl

/-- Settles O28: the forms with an index above 5 and with `PC` are cases of the two general ones. -/
theorem loadImmAndMov : Obligations.LoadImmAndMov := by
  unfold Obligations.LoadImmAndMov
  intro rd rs imm s
  refine ⟨exec_loadImm rd imm s, exec_mov rd rs s, fun n hn => ⟨?loadInvalid, ?movToInvalid, ?movFromInvalid⟩, ?loadPc⟩
  case loadInvalid => rw [exec_loadImm, writeReg_ofByte_of_gt s imm hn]
  case movToInvalid => rw [exec_mov, writeReg_ofByte_of_gt s _ hn]
  case movFromInvalid => rw [exec_mov, readReg_ofByte_of_ge s hn]
  case loadPc => rw [exec_loadImm, completed_writeReg_pc]

/-! ### Loads and pops -/

/-- A register write after a read that consumed input. -/
theorem retire_writeReg_input (s : State) (input : List Byte) (r : Reg) (v : Word) :
    retire (writeReg { s with input := input } r v) = completed s { writeReg s r v with input := input } := by
  rw [writeReg_input_comm]
  exact retire_eq_completed s _ (State.writeReg_cursor s r v) (State.writeReg_cycles s r v)

/-- Settles O29: the word read is the word found, and the read leaves all but the input. -/
theorem loadMemInstruction : Obligations.LoadMemInstruction := by
  unfold Obligations.LoadMemInstruction
  intro r addr s hready
  have hread : readWord s addr = some (wordAt s addr, { s with input := inputAfterWord s addr }) := by
    rw [readWord_eq, if_pos hready]
  calc exec (.loadMem r addr) s
      = .next (retire (writeReg { s with input := inputAfterWord s addr } r (wordAt s addr))) := by
        simp only [exec, execLoadMem, hread]
    _ = _ := by rw [retire_writeReg_input]

/-- Settles O32: `SP` has moved when the register is written, so that POP SP keeps the word read. -/
theorem popInstruction : Obligations.PopInstruction := by
  unfold Obligations.PopInstruction
  intro r s hready
  have hpop : pop s = some (wordAt s s.sp, { s with sp := s.sp + 2#16, input := inputAfterWord s s.sp }) := by
    rw [pop_eq, if_pos hready]
  calc exec (.pop r) s
      = .next (retire (writeReg { s with sp := s.sp + 2#16, input := inputAfterWord s s.sp } r (wordAt s s.sp))) := by
        simp only [exec, execPop, hpop]
    _ = _ := by rw [retire_writeReg_input { s with sp := s.sp + 2#16 }]; rfl

/-! ### PUSH then POP -/

section
variable {addr : Word} (hlow : isPort addr = false) (hhigh : isPort (addr + 1#16) = false)
include hlow hhigh

/-- R55: a word read away from the ports does not wait. -/
theorem wordReady_ram (s : State) : wordReady s addr = true := by
  obtain ⟨hreadyLow, -, -⟩ := read_ram s addr hlow
  obtain ⟨hreadyHigh, -, -⟩ := read_ram s (addr + 1#16) hhigh
  rw [wordReady, hreadyLow, hreadyHigh, Bool.and_self]

/-- R57, R58: a word stored away from the ports is the word found there. -/
theorem wordAt_of_stored {s t : State} {v : Word} (h : WordStored s t addr v) : wordAt t addr = v := by
  obtain ⟨-, hbyteLow, -⟩ := read_ram t addr hlow
  obtain ⟨-, hbyteHigh, -⟩ := read_ram t (addr + 1#16) hhigh
  calc wordAt t addr
      = word16 (byteAt t addr) (byteAt t (addr + 1#16)) := rfl
    _ = word16 (loByte v) (hiByte v) := by
        rw [hbyteLow, hbyteHigh, h.low hlow, h.high hhigh, loByte_eq, hiByte_eq]
    _ = v := word16_bytes v

end

/-- The second stack byte of a push is the one below the old `SP`. -/
theorem stackByte_succ (sp : Word) : sp - 2#16 + 1#16 = sp - 1#16 := by bv_omega

/-- Settles O33: POP finds at `SP - 2` the word that PUSH stored there, and takes `SP` back up. -/
theorem pushThenPop : Obligations.PushThenPop := by
  unfold Obligations.PushThenPop
  intro r q s next hq hlow hhigh
  rw [← stackByte_succ] at hhigh
  obtain ⟨t, hpush, hstored, hinside, hsp, -, -, -⟩ := pushInstruction r s
  obtain ⟨-, -, -, -, hflags, -⟩ := hinside
  rw [← hsp] at hlow hhigh hstored
  have hpop := popInstruction q { t with cursor := next } (wordReady_ram hlow hhigh _)
  have hfound : wordAt t t.sp = readReg s r := wordAt_of_stored hlow hhigh hstored
  have hword : wordAt { t with cursor := next } t.sp = readReg s r := hfound
  have hback : t.sp + 2#16 = s.sp := by rw [hsp]; bv_omega
  refine ⟨t, _, hpush, hpop, ?_⟩
  rw [hword, hback]
  rcases hq with rfl | rfl | rfl | rfl
  all_goals exact ⟨rfl, rfl, rfl, hflags⟩

/-! ### Encoded examples -/

/-- Bytes that encode a well-formed instruction decode to it. -/
theorem decode_of_encode_eq {bytes : List Byte} {i : Instr} (hwf : i.wellFormed = true) (henc : encode i = bytes) :
    decode bytes = .ok (i, []) := by
  rw [← henc, ← List.append_nil (encode i)]
  exact decodeOfEncode i hwf []

/-- Settles O6: each of the byte strings is the encoding of its instruction. -/
theorem exampleWordsDecode : Obligations.ExampleWordsDecode := by
  unfold Obligations.ExampleWordsDecode
  refine ⟨?_, ?_, ?_, ?_, ?_, ?_, ?_, ?_⟩
  all_goals exact decode_of_encode_eq rfl rfl

/-! ### NOP and the jumps -/

/-- NOP (R162). -/
theorem exec_nop (s : State) : exec .nop s = .next (completed s s) := rfl

/-- R230: a jump that is not taken is a NOP; one that is taken puts the target into cursor and `PC`. -/
theorem retireJump_eq (s : State) (taken : Bool) (addr : Word) :
    retireJump s taken addr = .next (if taken = true
      then { s with cursor := addr, pc := addr, cycles := s.cycles + 1#64, lastStep := .executed }
      else completed s s) := by
  cases taken <;> rfl

/-- R230: the same for the jumps that a flag being 0 takes. -/
theorem retireJump_not_eq (s : State) (flag : Bool) (addr : Word) :
    retireJump s (!flag) addr = .next (if flag = true then completed s s
      else { s with cursor := addr, pc := addr, cycles := s.cycles + 1#64, lastStep := .executed }) := by
  cases flag <;> rfl

/-- Settles O34: `retireJump` with the condition of each jump, a flag by its mask in R25. -/
theorem nopAndJumps : Obligations.NopAndJumps := by
  unfold Obligations.NopAndJumps
  intro addr s
  obtain ⟨hz, hc⟩ := flag_masks s.flags
  simp only [hz, hc]
  exact ⟨exec_nop s, retireJump_eq s true addr, retireJump_eq s _ addr, retireJump_not_eq s _ addr, retireJump_eq s _ addr,
    retireJump_not_eq s _ addr⟩

end Sys2Proof.Machine

/-! ## Arithmetic (spec/42_arithmetic.md R180 to R189)

Every flag is read off a number whose low half is the 16-bit result: the unbounded sum or product, the 32-bit difference.
Bit 15 of the operands and of the result decides O. -/

namespace Sys2Proof.Machine

/-! ### The flags of a result, one by one -/

section
variable {v : Word} {n : Nat} (c o : Bool)

/-- `setZN` (R8): Z by the mask of R180, from any number the result is the low half of. -/
theorem aluResult_z_iff (h : v.toNat = n % 0x10000) : (aluResult v c o).z = true ↔ n &&& 0xFFFF = 0 := by
  rw [and_FFFF, ← h]
  exact beq_iff_eq.trans BitVec.toNat_inj.symm

/-- `setZN` (R8): N by the mask of R180. -/
theorem aluResult_n_iff (h : v.toNat = n % 0x10000) : (aluResult v c o).n = true ↔ n &&& 0x8000 ≠ 0 := by
  rw [and_8000, ← bit15_of_toNat n v h]
  rfl

end

/-- R180: the sign bits that set O in an addition. -/
theorem addOverflowBit_iff (x y r : Bool) : ((x ^^ r) && (y ^^ r)) = true ↔ x = y ∧ r ≠ x := by
  revert x y r; decide

/-- R181: the sign bits that set O in a subtraction. -/
theorem subOverflowBit_iff (x y r : Bool) : ((x ^^ y) && (x ^^ r)) = true ↔ x ≠ y ∧ r ≠ x := by
  revert x y r; decide

/-! ### `alu_add` and `alu_sub` -/

/-- R180: the operands agree in bit 15 and the sum does not. -/
theorem aluAdd_o_iff_msb (x y : Word) : (aluAdd x y).o = true ↔ x.msb = y.msb ∧ (aluAdd x y).value.msb ≠ x.msb := by
  have hbits : (aluAdd x y).o = ((x.msb ^^ (x + y).msb) && (y.msb ^^ (x + y).msb)) := by
    simp only [aluAdd, aluResult, BitVec.msb_eq_getLsbD_last, BitVec.getLsbD_and, BitVec.getLsbD_xor]
  rw [hbits]
  exact addOverflowBit_iff x.msb y.msb (x + y).msb

/-- R181: the operands differ in bit 15, and the difference differs there from the minuend. -/
theorem aluSub_o_iff_msb (x y : Word) : (aluSub x y).o = true ↔ x.msb ≠ y.msb ∧ (aluSub x y).value.msb ≠ x.msb := by
  have hbits : (aluSub x y).o = ((x.msb ^^ y.msb) && (x.msb ^^ (x - y).msb)) := by
    simp only [aluSub, aluResult, BitVec.msb_eq_getLsbD_last, BitVec.getLsbD_and, BitVec.getLsbD_xor]
  rw [hbits]
  exact subOverflowBit_iff x.msb y.msb (x - y).msb

/-- Settles O15: Z and N are masks of the unbounded sum, whose low half is the value; O by its mask and by the sign bits. -/
theorem aluAddFormula : Obligations.AluAddFormula := by
  unfold Obligations.AluAddFormula
  intro x y
  have hvalue : (x + y).toNat = (x.toNat + y.toNat) % 0x10000 := BitVec.toNat_add x y
  refine ⟨hvalue, aluResult_z_iff _ _ hvalue, aluResult_n_iff _ _ hvalue, decide_eq_true_iff, ?overflowMask,
    aluAdd_o_iff_msb x y⟩
  case overflowMask => rw [aluAdd_o, bne_iff_ne]

/-- Settles O16: the same with the 32-bit difference. -/
theorem aluSubFormula : Obligations.AluSubFormula := by
  unfold Obligations.AluSubFormula
  intro x y r
  have hvalue : (x - y).toNat = r % 0x10000 := sub_toNat x y
  refine ⟨hvalue, aluResult_z_iff _ _ hvalue, aluResult_n_iff _ _ hvalue, decide_eq_true_iff, ?overflowMask,
    aluSub_o_iff_msb x y⟩
  case overflowMask => rw [aluSub_o, bne_iff_ne]

/-! ### The results as numbers -/

/-- R181: the result of a subtraction by the 16-bit wrap. -/
theorem sub_eq_ofNat (x y : Word) : x - y = BitVec.ofNat 16 (x.toNat + 0x10000 - y.toNat) := by bv_omega

/-- R189: DEC adds 0xFFFF, modulo 0x10000. -/
theorem pred_toNat (x : Word) : (x - 1#16).toNat = (x.toNat + 0xFFFF) % 0x10000 := by bv_omega

/-- R187: the quotient of words is the low half of the numbers' quotient. -/
theorem quotient_toNat (x y : Word) : (x / y).toNat = x.toNat / y.toNat % 0x10000 :=
  (Nat.mod_eq_of_lt (Nat.lt_of_le_of_lt (Nat.div_le_self _ _) x.isLt)).symm

/-- R187: the same for the remainder. -/
theorem remainder_toNat (x y : Word) : (x % y).toNat = x.toNat % y.toNat % 0x10000 :=
  (Nat.mod_eq_of_lt (Nat.lt_of_le_of_lt (Nat.mod_le _ _) x.isLt)).symm

/-! ### What the instructions execute -/

/-- An instruction with O = 0, by any number its result is the low half of. -/
theorem retireAlu_aluResult (s : State) (rd : Reg) {v : Word} {n : Nat} (c : Bool) (h : v.toNat = n % 0x10000) :
    retireAlu s rd (aluResult v c false) =
      .next (completed s { writeReg s rd (BitVec.ofNat 16 n) with flags := resultFlags s.flags n c }) :=
  retireAlu_eq s rd _ _ _ (word_eq_ofNat v n h) (setFlags_aluResult s v n c h)

/-- ADD and ADDI, whatever the second operand is (R182, R183). -/
theorem retireAlu_aluAdd (s : State) (rd : Reg) (x y : Word) :
    retireAlu s rd (aluAdd x y) = .next (completed s
      { writeReg s rd (BitVec.ofNat 16 (x.toNat + y.toNat)) with flags := addFlags s.flags x y }) :=
  retireAlu_eq s rd _ _ _ (word_eq_ofNat (x + y) _ (BitVec.toNat_add x y)) (setFlags_aluAdd s x y)

/-- SUB and SUBI, whatever the second operand is (R184, R185). -/
theorem retireAlu_aluSub (s : State) (rd : Reg) (x y : Word) :
    retireAlu s rd (aluSub x y) = .next (completed s
      { writeReg s rd (BitVec.ofNat 16 (x.toNat + 0x10000 - y.toNat)) with flags := subFlags s.flags x y }) :=
  retireAlu_eq s rd _ _ _ (sub_eq_ofNat x y) (setFlags_aluSub s x y)

/-- Settles O18: the bytes by their formats, and `alu_add` with either second operand. -/
theorem addInstructions : Obligations.AddInstructions := by
  unfold Obligations.AddInstructions
  refine ⟨fun b1 b2 b3 => ⟨decodesTo_p rfl b1, decodesTo_rw rfl b1 b2 b3⟩, fun rd rs imm s => ⟨?add, ?addi⟩⟩
  case add => exact retireAlu_aluAdd s rd (readReg s rd) (readReg s rs)
  case addi => exact retireAlu_aluAdd s rd (readReg s rd) imm

/-- Settles O19: the bytes by their formats, and `alu_sub` with either second operand. -/
theorem subInstructions : Obligations.SubInstructions := by
  unfold Obligations.SubInstructions
  refine ⟨fun b1 b2 b3 => ⟨decodesTo_p rfl b1, decodesTo_rw rfl b1 b2 b3⟩, fun rd rs imm s => ⟨?sub, ?subi⟩⟩
  case sub => exact retireAlu_aluSub s rd (readReg s rd) (readReg s rs)
  case subi => exact retireAlu_aluSub s rd (readReg s rd) imm

/-- Settles O20: both results are low halves, of the register plus 1 and of the register plus 0xFFFF. -/
theorem incDecInstructions : Obligations.IncDecInstructions := by
  unfold Obligations.IncDecInstructions
  refine ⟨fun b1 => ⟨decodesTo_r rfl b1, decodesTo_r rfl b1⟩, fun r s => ⟨?inc, ?dec⟩⟩
  case inc => exact retireAlu_aluResult s r false (BitVec.toNat_add (readReg s r) 1#16)
  case dec =>
    have hpred := pred_toNat (readReg s r)
    exact retireAlu_eq s r _ _ _ (word_eq_ofNat _ _ hpred)
      (setFlags_aluResult s _ _ false (hpred.trans (Nat.mod_mod _ _).symm))

/-- R186: C by the high half of the product. -/
theorem aluMul_eq (x y : Word) :
    aluMul x y = aluResult (x * y) (decide (x.toNat * y.toNat / 0x10000 ≠ 0)) false := by
  have hcarry : ((x.toNat * y.toNat) >>> 16 != 0) = decide (x.toNat * y.toNat / 0x10000 ≠ 0) := by
    rw [Nat.shiftRight_eq_div_pow, Bool.eq_iff_iff, bne_iff_ne, decide_eq_true_iff]
  rw [aluMul, hcarry]

/-- Settles O21: the value is the low half of the product. -/
theorem mulInstruction : Obligations.MulInstruction := by
  unfold Obligations.MulInstruction
  intro rd rs s p
  calc exec (.mul rd rs) s
      = retireAlu s rd (aluResult (readReg s rd * readReg s rs) (decide (p / 0x10000 ≠ 0)) false) :=
        congrArg (retireAlu s rd) (aluMul_eq _ _)
    _ = _ := retireAlu_aluResult s rd _ (BitVec.toNat_mul (readReg s rd) (readReg s rs))

/-- R187: DIV with a divisor that is not zero makes both writes, the remainder's last. -/
theorem execDiv_of_ne_zero {rd rs : Reg} {s : State} (h : readReg s rs ≠ 0#16) :
    execDiv rd rs s = .next (completed s
      { writeReg (writeReg s rd (readReg s rd / readReg s rs)) rs (readReg s rd % readReg s rs) with
        flags := (setFlags s (aluDiv (readReg s rd) (readReg s rs))).flags }) := by
  rw [execDiv, if_neg h, ← writeReg_flags_comm, ← writeReg_flags_comm, ← retire_eq_completed]
  · rfl
  · rw [State.writeReg_cursor, State.writeReg_cursor]
  · rw [State.writeReg_cycles, State.writeReg_cycles]

/-- Settles O22: quotient and remainder are those of the numbers, and the flags are the quotient's. -/
theorem divInstruction : Obligations.DivInstruction := by
  unfold Obligations.DivInstruction
  intro rd rs s hdivisor q m
  have hne : readReg s rs ≠ 0#16 := fun h => hdivisor (congrArg BitVec.toNat h)
  have hquotient := quotient_toNat (readReg s rd) (readReg s rs)
  have hq : readReg s rd / readReg s rs = BitVec.ofNat 16 q := word_eq_ofNat _ q hquotient
  have hm : readReg s rd % readReg s rs = BitVec.ofNat 16 m := word_eq_ofNat _ m (remainder_toNat _ _)
  have hflags : (setFlags s (aluDiv (readReg s rd) (readReg s rs))).flags = resultFlags s.flags q false :=
    setFlags_aluResult s _ q false hquotient
  rw [exec, execDiv_of_ne_zero hne, hq, hm, hflags]

end Sys2Proof.Machine

/-! ## Logic and shifts (spec/43_logic_shift.md R200 to R206)

Every instruction here is a bitwise or shift operation with O = 0. Its result as a word, read as a number, is the operation on
the operands read as numbers; destination, Z, N and writeback are then those of `retireAlu_aluResult`. -/

namespace Sys2Proof.Machine

/-! ### The results as numbers -/

/-- A word is the low half of the number it reads as. -/
theorem toNat_eq_lowHalf {v : Word} {n : Nat} (h : v.toNat = n) : v.toNat = n % 0x10000 := by
  rw [← h]
  exact (Nat.mod_eq_of_lt v.isLt).symm

/-- R204: the complement of a word, as a number. -/
theorem complement_toNat (x : Word) : (~~~x).toNat = 0xFFFF - x.toNat := BitVec.toNat_not

/-- R205: a left shift multiplies and drops what passes bit 15. -/
theorem leftShift_toNat (x : Word) (k : Nat) : (x <<< k).toNat = x.toNat * 2 ^ k % 0x10000 := by
  rw [BitVec.toNat_shiftLeft, Nat.shiftLeft_eq]

/-- R206: a right shift divides. -/
theorem rightShift_toNat (x : Word) (k : Nat) : (x >>> k).toNat = x.toNat / 2 ^ k := by
  rw [BitVec.toNat_ushiftRight, Nat.shiftRight_eq_div_pow]

/-! ### The last bit moved out -/

/-- R205, R206: C is 0 for a count of 0 and, by decision D13, above 16; between them it is the bit moved out last. -/
theorem carryByCount_eq (k : Nat) (out : Bool) :
    (decide (k ≠ 0) && (decide (k ≤ 16) && out)) = if k = 0 then false else if k ≤ 16 then out else false := by
  by_cases hzero : k = 0
  · simp [hzero]
  · by_cases hle : k ≤ 16
    · simp [hzero, hle]
    · simp [hzero, hle]

/-- R205: the bit that leaves bit 15 last. -/
theorem shlCarry_eq (x : Word) (k : Nat) :
    shlCarry x k = if k = 0 then false else if k ≤ 16 then x.toNat.testBit (16 - k) else false :=
  carryByCount_eq k (x.getLsbD (16 - k))

/-- R206: the bit that leaves bit 0 last. -/
theorem shrCarry_eq (x : Word) (k : Nat) :
    shrCarry x k = if k = 0 then false else if k ≤ 16 then x.toNat.testBit (k - 1) else false :=
  carryByCount_eq k (x.getLsbD (k - 1))

/-! ### What the instructions execute -/

/-- Settles O24: the bytes by their formats, and the flag rule of R200 on each bitwise result. -/
theorem logicInstructions : Obligations.LogicInstructions := by
  unfold Obligations.LogicInstructions
  refine ⟨fun b1 => ⟨decodesTo_p rfl b1, decodesTo_p rfl b1, decodesTo_p rfl b1, decodesTo_r rfl b1⟩,
    fun rd rs s => ⟨?and, ?or, ?xor, ?not⟩⟩
  case and => exact retireAlu_aluResult s rd false (toNat_eq_lowHalf (BitVec.toNat_and _ _))
  case or => exact retireAlu_aluResult s rd false (toNat_eq_lowHalf (BitVec.toNat_or _ _))
  case xor => exact retireAlu_aluResult s rd false (toNat_eq_lowHalf (BitVec.toNat_xor _ _))
  case not => exact retireAlu_aluResult s rd false (toNat_eq_lowHalf (complement_toNat _))

/-- Settles O25: the shifted word is the number multiplied or divided by the power of two, and C goes by the count. -/
theorem shiftInstructions : Obligations.ShiftInstructions := by
  unfold Obligations.ShiftInstructions
  intro r k s x left right
  refine ⟨?shl, ?shr⟩
  case shl =>
    rw [← shlCarry_eq]
    exact retireAlu_aluResult s r _ (toNat_eq_lowHalf (leftShift_toNat _ _))
  case shr =>
    rw [← shrCarry_eq]
    exact retireAlu_aluResult s r _ (toNat_eq_lowHalf (rightShift_toNat _ _))

end Sys2Proof.Machine

/-! ## Compare (spec/44_compare.md R220, R221)

A compare is `alu_sub` whose value goes nowhere: the writeback after the flags of R181, and no register written. -/

namespace Sys2Proof.Machine

/-- The flags of an ALU result change the flags byte alone. -/
theorem setFlags_eq_with_flags {s : State} {r : Alu} {flags : Byte} (h : (setFlags s r).flags = flags) :
    setFlags s r = { s with flags := flags } := by
  rw [← h]
  rfl

/-- CMP and CMPI, whatever the second operand is (R220, R221). -/
theorem retireCompare_aluSub (s : State) (x y : Word) :
    retireCompare s (aluSub x y) = .next (completed s { s with flags := subFlags s.flags x y }) := by
  rw [retireCompare, setFlags_eq_with_flags (setFlags_aluSub s x y)]
  exact congrArg _ (retire_eq_completed s _ rfl rfl)

/-- Settles O26: the bytes by their formats, and the flags of `alu_sub` with either second operand. -/
theorem compareInstructions : Obligations.CompareInstructions := by
  unfold Obligations.CompareInstructions
  refine ⟨fun b1 b2 b3 => ⟨decodesTo_p rfl b1, decodesTo_rw rfl b1 b2 b3⟩, fun rd rs imm s => ⟨?cmp, ?cmpi⟩⟩
  case cmp => exact retireCompare_aluSub s (readReg s rd) (readReg s rs)
  case cmpi => exact retireCompare_aluSub s (readReg s rd) imm

end Sys2Proof.Machine

/-! ## Calls, returns, and branches on a compare (spec/45_control_transfer.md R230, R234, R236, R238, R239)

CALL is a push followed by a jump and RET a pop followed by one, so their rules are those of the stack; JZ and JC after a
compare read back the two flags that it wrote. -/

namespace Sys2Proof.Machine

/-! ### CALL and RET -/

section
variable {s t : State}

/-- A transfer moves the cursor, which is no part of what a word store is about. -/
theorem WordStored.jumpTo {addr v : Word} (h : WordStored s t addr v) (target : Word) :
    WordStored s (jumpTo t target) addr v :=
  { h with }

theorem sameInside.jumpTo (h : sameInside s t) (target : Word) : sameInside s (jumpTo t target) := h

end

/-- CALL (R238). -/
theorem exec_call (addr : Word) (s : State) : exec (.call addr) s = .next (retire (jumpTo (push s s.cursor) addr)) := rfl

/-- Settles O35: the push of the cursor stores the word and moves `SP`; the jump gives `PC` its target. -/
theorem callInstruction : Obligations.CallInstruction := by
  unfold Obligations.CallInstruction
  intro addr s
  refine ⟨_, exec_call addr s, ((push_stored s _).jumpTo addr).retire, ((push_sameInside s _).jumpTo addr).retire, ?sp, ?pc,
    ?cycles, State.retire_lastStep _⟩
  case sp => rw [State.retire_sp, State.jumpTo_sp, push_sp]
  case pc => rw [State.retire_pc, State.jumpTo_cursor]
  case cycles => rw [State.retire_cycles, State.jumpTo_cycles, push_cycles]

/-- Settles O36: the word popped becomes the cursor, which the writeback takes into `PC`. -/
theorem retInstruction : Obligations.RetInstruction := by
  unfold Obligations.RetInstruction
  intro s hready
  have hpop : pop s = some (wordAt s s.sp, { s with sp := s.sp + 2#16, input := inputAfterWord s s.sp }) := by
    rw [pop_eq, if_pos hready]
  calc exec .ret s
      = .next (retire (jumpTo { s with sp := s.sp + 2#16, input := inputAfterWord s s.sp } (wordAt s s.sp))) := by
        simp only [exec, execRet, hpop]
    _ = _ := rfl

/-- Settles O37: RET finds at `SP - 2` the cursor that CALL stored there, and takes `SP` back up. -/
theorem callThenRet : Obligations.CallThenRet := by
  unfold Obligations.CallThenRet
  intro addr next s hlow hhigh
  rw [← stackByte_succ] at hhigh
  obtain ⟨t, hcall, hstored, hinside, hsp, -, -, -⟩ := callInstruction addr s
  obtain ⟨-, -, -, -, hflags, -⟩ := hinside
  rw [← hsp] at hlow hhigh hstored
  have hret := retInstruction { t with cursor := next } (wordReady_ram hlow hhigh _)
  have hfound : wordAt t t.sp = s.cursor := wordAt_of_stored hlow hhigh hstored
  have hback : t.sp + 2#16 = s.sp := by rw [hsp]; bv_omega
  exact ⟨t, _, hcall, hret, hfound, hback, hflags⟩

/-! ### Branches on a compare -/

/-- R25: Z is read back from the place where it is written. -/
@[simp] theorem flagZ_packFlags (old : Byte) (z c n o : Bool) : flagZ (packFlags old z c n o) = z := by
  simp only [flagZ, packFlags, BitVec.getLsbD_append]
  simp

/-- R25: the same for C. -/
@[simp] theorem flagC_packFlags (old : Byte) (z c n o : Bool) : flagC (packFlags old z c n o) = c := by
  simp only [flagC, packFlags, BitVec.getLsbD_append]
  simp

/-- R181: Z after a subtraction, since the 16-bit difference is zero for equal operands only. -/
theorem flagZ_setFlags_aluSub (s : State) (x y : Word) : flagZ (setFlags s (aluSub x y)).flags = true ↔ x = y := by
  rw [State.setFlags_flags, flagZ_packFlags]
  exact beq_iff_eq.trans sub_eq_zero

/-- R181: C after a subtraction is the unsigned borrow. -/
theorem flagC_setFlags_aluSub (s : State) (x y : Word) :
    flagC (setFlags s (aluSub x y)).flags = true ↔ x.toNat < y.toNat := by
  rw [State.setFlags_flags, flagC_packFlags]
  exact decide_eq_true_iff

/-- R230: a jump whose condition says `P` goes to its target when `P` holds and on at the cursor when it does not. -/
theorem retireJump_pc (s : State) {taken : Bool} {P : Prop} [Decidable P] (h : taken = true ↔ P) (addr : Word) :
    ∃ u, retireJump s taken addr = .next u ∧ u.pc = if P then addr else s.cursor := by
  refine ⟨_, rfl, ?_⟩
  by_cases hP : P
  · rw [State.retire_pc, if_pos (h.mpr hP), if_pos hP, State.jumpTo_cursor]
  · rw [State.retire_pc, if_neg (mt h.mp hP), if_neg hP]

/-- Settles O27: the flags of `alu_sub` are the two relations, and the jumps read them where CMP has put them. -/
theorem compareThenBranch : Obligations.CompareThenBranch := by
  unfold Obligations.CompareThenBranch
  intro rd rs s t addr h
  obtain rfl : retire (setFlags s (aluSub (readReg s rd) (readReg s rs))) = t := Host.Outcome.next.inj h
  have hz := flagZ_setFlags_aluSub s (readReg s rd) (readReg s rs)
  have hc := flagC_setFlags_aluSub s (readReg s rd) (readReg s rs)
  exact ⟨hz, hc, retireJump_pc _ hz addr, retireJump_pc _ hc addr⟩

end Sys2Proof.Machine

/-! ## Input, output and halt (spec/46_io_system.md R250 to R252)

IN is a byte read and OUT a byte write, at any address, each followed by the writeback; HLT ends the step without one. What
the read and the write do at each port and away from the ports are facts about the memory interface. -/

namespace Sys2Proof.Machine

/-- Settles O40: HLT is `halt` alone, which writes neither `PC` nor the count. -/
theorem hltInstruction : Obligations.HltInstruction := by
  unfold Obligations.HltInstruction
  intro s
  rw [exec_hlt, halt]

/-- Settles O38: the byte read is the byte found, and the read leaves all but the input. -/
theorem inInstruction : Obligations.InInstruction := by
  unfold Obligations.InInstruction
  intro r port s hready
  have hread : readByte s port = some (byteAt s port, { s with input := inputAfterByte s port }) := by
    rw [readByte_eq, if_pos hready]
  calc exec (.inPort r port) s
      = .next (retire (writeReg { s with input := inputAfterByte s port } r (zextByte (byteAt s port)))) := by
        simp only [exec, execIn, hread]
    _ = _ := by rw [retire_writeReg_input, zextByte_eq]

/-- R137: a byte write moves neither the cursor nor the count, so the writeback after it is that of the step. -/
theorem retire_writeByte (s : State) (addr : Word) (v : Byte) :
    retire (writeByte s addr v) = completed s (writeByte s addr v) :=
  retire_eq_completed s _ (writeByte_cursor s addr v) (Touched.writeByte s addr v).cycles

/-- OUT (R251): the byte written is the register's number modulo 0x100. -/
theorem exec_outPort (port : Word) (r : Reg) (s : State) :
    exec (.outPort port r) s =
      .next (completed s (writeByte s port (BitVec.ofNat 8 ((readReg s r).toNat % 0x100)))) := by
  rw [← loByte_eq_mod, ← retire_writeByte]
  rfl

/-- Settles O39: at a port by the handler of that port (`portWrites`), elsewhere by the laws of the memory array. -/
theorem outInstruction : Obligations.OutInstruction := by
  unfold Obligations.OutInstruction
  intro port r s v
  have hbyte : (BitVec.ofNat 8 v).toNat = v := Nat.mod_eq_of_lt (Nat.mod_lt _ (by decide))
  obtain ⟨hstdout, hstdin, henable, hdisable, hvalue⟩ := portWrites s (BitVec.ofNat 8 v)
  rw [hbyte] at henable hdisable hvalue
  refine ⟨?stdout, ?stdin, fun hv => ?enable, fun hv => ?disable, ?value, fun hram => ⟨_, exec_outPort port r s, ?ram⟩⟩
  case stdout => rw [exec_outPort, hstdout]
  case stdin => rw [exec_outPort, hstdin]
  case enable => rw [exec_outPort, henable hv]
  case disable => rw [exec_outPort, hdisable hv]
  case value => rw [exec_outPort, hvalue]
  case ram =>
    rw [writeByte_ram s _ hram]
    exact ⟨Memory.read_write_same _ _ _, fun n hne => Memory.read_write_other s.mem _ hne, rfl⟩

end Sys2Proof.Machine

/-! ## Signed overflow (spec/93_implementation_defined.md G-1, G-2)

The sign bits that decide O in R180 and R181 are those by which the library decides signed overflow of a sum and of a
difference; so O says of the operands read as two's complement what the library's test says of them. -/

namespace Sys2Proof.Machine

/-- The O of `alu_add` is the library's test for signed overflow of a sum. -/
theorem aluAdd_o_eq_saddOverflow (x y : Word) : (aluAdd x y).o = x.saddOverflow y := by
  rw [Bool.eq_iff_iff, aluAdd_o_iff_msb, BitVec.saddOverflow_eq]
  simp [aluAdd, aluResult]

/-- The library's sign bits for overflow of a difference, in the form of `aluSub_o_iff_msb`. -/
theorem ssubOverflowBit_iff (x y r : Bool) : (!x && y && r || x && !y && !r) = true ↔ x ≠ y ∧ r ≠ x := by
  revert x y r; decide

/-- The O of `alu_sub` is the library's test for signed overflow of a difference. -/
theorem aluSub_o_eq_ssubOverflow (x y : Word) : (aluSub x y).o = x.ssubOverflow y := by
  rw [Bool.eq_iff_iff, aluSub_o_iff_msb, BitVec.ssubOverflow_eq]
  exact (ssubOverflowBit_iff x.msb y.msb (x - y).msb).symm

/-- Settles O17: the library's tests are by definition about the range of the signed sum and difference. -/
theorem signedOverflowReading : Obligations.SignedOverflowReading := by
  unfold Obligations.SignedOverflowReading
  intro x y
  rw [aluAdd_o_eq_saddOverflow, aluSub_o_eq_ssubOverflow, BitVec.saddOverflow, BitVec.ssubOverflow]
  simp only [Bool.or_eq_true, decide_eq_true_eq]
  constructor
  · omega
  · omega

end Sys2Proof.Machine

/-! ## Waits and runtime errors of an execution (spec/60_exceptions.md R270, R271, spec/70_reset_and_hazards.md R312)

These two ends leave the state alone but for its outcome and, for an error, the run flags. -/

namespace Sys2Proof.Machine

/-! ### Reads that wait -/

section
variable {s : State} {addr : Word}

theorem readByte_of_not_ready (h : readReady s addr = false) : readByte s addr = none := by
  rw [readByte_eq, if_neg (by simp [h])]

theorem readWord_of_not_ready (h : wordReady s addr = false) : readWord s addr = none := by
  rw [readWord_eq, if_neg (by simp [h])]

theorem pop_of_not_ready (h : wordReady s s.sp = false) : pop s = none := by
  rw [pop_eq, if_neg (by simp [h])]

end

/-- Settles O41: the read, or the pop, has no answer, and the execution is then `awaitInput`. -/
theorem readsThatWait : Obligations.ReadsThatWait := by
  unfold Obligations.ReadsThatWait
  intro r addr s
  refine ⟨fun h => ?loadMem, fun h => ?pop, fun h => ?ret, fun h => ?inPort⟩
  case loadMem => simp only [exec, execLoadMem, readWord_of_not_ready h, awaitInput]
  case pop => simp only [exec, execPop, pop_of_not_ready h, awaitInput]
  case ret => simp only [exec, execRet, pop_of_not_ready h, awaitInput]
  case inPort => simp only [exec, execIn, readByte_of_not_ready h, awaitInput]

/-! ### Runtime errors -/

/-- R271: of the ways an execution can end, only a DIV by zero records a runtime error. -/
theorem divideByZero_of_fatal {i : Instr} {s t : State} {kind : RuntimeError} {pc0 : Word} (h : exec i s = .next t)
    (hl : t.lastStep = .fatal kind pc0) :
    kind = .divideByZero ∧ pc0 = s.pc ∧ ∃ rd rs, i = .div rd rs ∧ readReg s rs = 0#16 := by
  cases ends_of_exec h with
  | waits | halts | retires => simp at hl
  | divideByZero rd rs hi hz =>
    rw [State.raiseFatal_lastStep] at hl
    cases hl
    exact ⟨rfl, rfl, rd, rs, hi, hz⟩

/-- Settles O23: `exec_div_zero`, an index above 5 reading 0; and the ends of an execution. -/
theorem divideByZeroStops : Obligations.DivideByZeroStops := by
  unfold Obligations.DivideByZeroStops
  refine ⟨fun rd rs s hz => ?zero, fun rd n s hn => ?invalid, fun i s t kind pc0 => divideByZero_of_fatal⟩
  case zero => exact exec_div_zero (BitVec.eq_of_toNat_eq hz)
  case invalid => exact exec_div_zero (readReg_ofByte_of_ge s hn)

end Sys2Proof.Machine

/-! ## The frame of the registers (spec/40_execution_cycle.md R137, R138)

What a register operand reads after each update of the state; every instruction is then followed update by update. -/

namespace Sys2Proof.Machine

/-! ### A register read after an update of the state -/

section
variable (s : State) (q : Reg)

@[simp] theorem readReg_setFlags (r : Alu) : readReg (setFlags s r) q = readReg s q := by cases q <;> rfl

@[simp] theorem readReg_jumpTo (target : Word) : readReg (jumpTo s target) q = readReg s q := by cases q <;> rfl

@[simp] theorem readReg_halt : readReg (halt s) q = readReg s q := by cases q <;> rfl

@[simp] theorem readReg_raiseFatal (kind : RuntimeError) : readReg (raiseFatal kind s) q = readReg s q := by
  cases q <;> rfl

@[simp] theorem readReg_startRun : readReg (startRun s) q = readReg s q := by cases q <;> rfl

@[simp] theorem readReg_afterFetch (cursor : Word) (input : List Byte) :
    readReg (afterFetch s cursor input) q = readReg s q := by cases q <;> rfl

/-- Registers do not see the host's input. -/
theorem readReg_input (input : List Byte) : readReg { s with input := input } q = readReg s q := by cases q <;> rfl

@[simp] theorem readReg_writeByte (addr : Word) (v : Byte) : readReg (writeByte s addr v) q = readReg s q := by
  rw [writeByte_eq]
  cases q <;> rfl

@[simp] theorem readReg_writeWord (addr v : Word) : readReg (writeWord s addr v) q = readReg s q := by
  simp [writeWord]

variable {q}

/-- The writeback writes `PC` alone. -/
theorem readReg_retire (hq : q ≠ .pc) : readReg (retire s) q = readReg s q := by
  cases q with
  | pc => exact absurd rfl hq
  | a | b | c | d | sp | invalid => rfl

theorem readReg_setSp (v : Word) (hq : q ≠ .sp) : readReg (setSp s v) q = readReg s q := by
  cases q with
  | sp => exact absurd rfl hq
  | a | b | c | d | pc | invalid => rfl

theorem readReg_push (v : Word) (hq : q ≠ .sp) : readReg (push s v) q = readReg s q := by
  rw [push_eq_setSp, readReg_setSp _ _ hq, readReg_writeWord]

/-- A write to a destination, and the writeback, leave the other registers but `PC`. -/
theorem readReg_retire_writeReg {rd : Reg} (v : Word) (hq : q ≠ .pc) (hrd : (rd == q) = false) :
    readReg (retire (writeReg s rd v)) q = readReg s q := by
  rw [readReg_retire _ hq, readReg_writeReg_other _ _ (ne_of_beq_false hrd).symm]

end

/-! ### Reads leave the registers, a pop all but `SP` -/

section
variable {s s1 t : State} {q : Reg}

theorem readByte_readReg {addr : Word} {v : Byte} (h : readByte s addr = some (v, s1)) : readReg s1 q = readReg s q := by
  rw [readByte_eq] at h
  split at h
  case isTrue => cases h; exact readReg_input s q _
  case isFalse => cases h

theorem readWord_readReg {addr v : Word} (h : readWord s addr = some (v, s1)) : readReg s1 q = readReg s q := by
  rw [readWord_eq] at h
  split at h
  case isTrue => cases h; exact readReg_input s q _
  case isFalse => cases h

theorem pop_readReg {v : Word} (h : pop s = some (v, s1)) (hq : q ≠ .sp) : readReg s1 q = readReg s q := by
  unfold pop at h
  split at h
  case h_1 => cases h
  case h_2 v' s2 hread =>
    cases h
    rw [readReg_setSp _ _ hq, readWord_readReg hread]

/-! ### The instructions of one shape, and those that end in more than one way -/

theorem retireAlu_readReg {rd : Reg} {r : Alu} (h : retireAlu s rd r = .next t) (hq : q ≠ .pc)
    (hrd : (rd == q) = false) : readReg t q = readReg s q := by
  cases h
  rw [readReg_retire_writeReg _ _ hq hrd, readReg_setFlags]

theorem retireCompare_readReg {r : Alu} (h : retireCompare s r = .next t) (hq : q ≠ .pc) :
    readReg t q = readReg s q := by
  cases h
  rw [readReg_retire _ hq, readReg_setFlags]

theorem retireJump_readReg {taken : Bool} {addr : Word} (h : retireJump s taken addr = .next t) (hq : q ≠ .pc) :
    readReg t q = readReg s q := by
  cases h
  rw [readReg_retire _ hq]
  cases taken with
  | false => rfl
  | true => exact readReg_jumpTo s q addr

theorem execDiv_readReg {rd rs : Reg} (h : execDiv rd rs s = .next t) (hq : q ≠ .pc) (hrd : (rd == q) = false)
    (hrs : (rs == q) = false) : readReg t q = readReg s q := by
  simp only [execDiv] at h
  split at h
  case isTrue => cases h; exact readReg_raiseFatal s q .divideByZero
  case isFalse =>
    cases h
    rw [readReg_retire_writeReg _ _ hq hrs, readReg_writeReg_other _ _ (ne_of_beq_false hrd).symm, readReg_setFlags]

theorem execLoadMem_readReg {r : Reg} {addr : Word} (h : execLoadMem r addr s = .next t) (hq : q ≠ .pc)
    (hr : (r == q) = false) : readReg t q = readReg s q := by
  unfold execLoadMem at h
  split at h
  case h_1 => cases h; exact readReg_awaitInput s q
  case h_2 v s1 hread => cases h; rw [readReg_retire_writeReg _ _ hq hr, readWord_readReg hread]

theorem execPop_readReg {r : Reg} (h : execPop r s = .next t) (hq : q ≠ .pc) (hr : (r == q) = false) (hsp : q ≠ .sp) :
    readReg t q = readReg s q := by
  unfold execPop at h
  split at h
  case h_1 => cases h; exact readReg_awaitInput s q
  case h_2 v s1 hpop => cases h; rw [readReg_retire_writeReg _ _ hq hr, pop_readReg hpop hsp]

theorem execRet_readReg (h : execRet s = .next t) (hq : q ≠ .pc) (hsp : q ≠ .sp) : readReg t q = readReg s q := by
  unfold execRet at h
  split at h
  case h_1 => cases h; exact readReg_awaitInput s q
  case h_2 v s1 hpop => cases h; rw [readReg_retire _ hq, readReg_jumpTo, pop_readReg hpop hsp]

theorem execIn_readReg {r : Reg} {port : Word} (h : execIn r port s = .next t) (hq : q ≠ .pc)
    (hr : (r == q) = false) : readReg t q = readReg s q := by
  unfold execIn at h
  split at h
  case h_1 => cases h; exact readReg_awaitInput s q
  case h_2 v s1 hread => cases h; rw [readReg_retire_writeReg _ _ hq hr, readByte_readReg hread]

/-! ### Every instruction -/

/-- A register that is neither a destination nor `PC` reads as before. -/
theorem exec_readReg {i : Instr} (h : exec i s = .next t) (hi : writesReg i q = false) (hq : q ≠ .pc) :
    readReg t q = readReg s q := by
  cases i with
  | nop => cases h; exact readReg_retire s hq
  | hlt => cases h; exact readReg_halt s q
  | loadImm | mov => cases h; exact readReg_retire_writeReg s _ hq hi
  | store => cases h; rw [readReg_retire _ hq, readReg_writeWord]
  | outPort => cases h; rw [readReg_retire _ hq, readReg_writeByte]
  | push => cases h; rw [readReg_retire _ hq, readReg_push _ _ (ne_of_beq_false hi)]
  | call => cases h; rw [readReg_retire _ hq, readReg_jumpTo, readReg_push _ _ (ne_of_beq_false hi)]
  | ret => exact execRet_readReg h hq (ne_of_beq_false hi)
  | pop =>
    obtain ⟨hr, hsp⟩ := Bool.or_eq_false_iff.1 hi
    exact execPop_readReg h hq hr (ne_of_beq_false hsp)
  | div =>
    obtain ⟨hrd, hrs⟩ := Bool.or_eq_false_iff.1 hi
    exact execDiv_readReg h hq hrd hrs
  | loadMem => exact execLoadMem_readReg h hq hi
  | inPort => exact execIn_readReg h hq hi
  | add | addi | sub | subi | mul | inc | dec | and | or | xor | not | shl | shr => exact retireAlu_readReg h hq hi
  | cmp | cmpi => exact retireCompare_readReg h hq
  | jmp | jz | jnz | jc | jnc => exact retireJump_readReg h hq

end

/-- Settles O56: the frame of every instruction. -/
theorem registerFrame : Obligations.RegisterFrame := by
  unfold Obligations.RegisterFrame
  exact fun i s t q => exec_readReg

end Sys2Proof.Machine

/-! ## The host's actions (spec/70_reset_and_hazards.md R302, R304, log entry 6)

A raw copy puts an image into memory, a fetch finds there what was copied, and `run` clears `halted` before it steps. -/

namespace Sys2Proof.Machine

/-! ### load_program -/

/-- R302: an image that fits is copied. -/
theorem loadProgram_of_fits {bytes : List Byte} {start : Word} (h : start.toNat + bytes.length ≤ 0x10000) (s : State) :
    loadProgram bytes start s = .ok { s with mem := s.mem.copyIn start bytes, pc := start } :=
  if_neg (Nat.not_lt.2 h)

/-- Settles O58: `Memory.read_copyIn` inside the image and outside it. -/
theorem loadProgramCopies : Obligations.LoadProgramCopies := by
  unfold Obligations.LoadProgramCopies
  intro bytes start s
  refine ⟨fun h => if_pos h, fun h => ⟨_, loadProgram_of_fits h s, rfl, fun k hk => ?copied, fun n hn => ?kept, rfl⟩⟩
  case copied =>
    rw [Memory.read_copyIn _ _ _ h, dif_pos ⟨Nat.le_add_right _ _, Nat.add_lt_add_left hk _⟩]
    simp only [Nat.add_sub_cancel_left]
  case kept => rw [Memory.read_copyIn _ _ _ h, dif_neg (by omega)]

/-! ### Bytes copied in, wherever they wrap -/

/-- A raw copy leaves every byte but those at its addresses, modulo 0x10000. -/
theorem Memory.read_copyIn_other (bytes : List Byte) {m : Memory} {start : Word} {n : Nat}
    (h : ∀ k < bytes.length, n ≠ (start + BitVec.ofNat 16 k).toNat) : (m.copyIn start bytes).read n = m.read n := by
  induction bytes generalizing m start with
  | nil => rfl
  | cons v rest ih =>
    have hfirst : n ≠ start.toNat := by simpa using h 0 (by simp)
    have hrest : ∀ k < rest.length, n ≠ (start + 1#16 + BitVec.ofNat 16 k).toNat := by
      intro k hk
      rw [cursor_past_operands, Nat.add_comm]
      exact h (k + 1) (Nat.succ_lt_succ hk)
    rw [Memory.copyIn, ih hrest, Memory.read_write_other m v hfirst]

/-- An image no longer than the memory stands where it was copied. -/
theorem bytesAt_of_copyIn {bytes : List Byte} (hlen : bytes.length ≤ 0x10000) {s : State} {m : Memory} {start : Word}
    (h : s.mem = m.copyIn start bytes) : bytesAt s start bytes.length = bytes := by
  induction bytes generalizing m start with
  | nil => rfl
  | cons v rest ih =>
    rw [List.length_cons] at hlen
    have hkept : ∀ k < rest.length, start.toNat ≠ (start + 1#16 + BitVec.ofNat 16 k).toNat := by
      intro k hk
      simp only [BitVec.toNat_add, BitVec.toNat_ofNat]
      omega
    have hfirst : s.mem.read start.toNat = v := by
      rw [h, Memory.copyIn, Memory.read_copyIn_other rest hkept, Memory.read_write_same]
    rw [List.length_cons, bytesAt, hfirst, ih (by omega) h]

/-! ### A step from bytes in memory -/

theorem noPortIn_of_le {addr : Word} {m n : Nat} (h : noPortIn addr n = true) (hmn : m ≤ n) :
    noPortIn addr m = true := by
  induction m generalizing addr n with
  | zero => rfl
  | succ m ih =>
    obtain ⟨n, rfl⟩ : ∃ n', n = n' + 1 := Nat.exists_eq_add_one_of_ne_zero (by omega)
    obtain ⟨hfirst, hrest⟩ := (noPortIn_succ _ _).1 h
    exact (noPortIn_succ _ _).2 ⟨hfirst, ih hrest (Nat.le_of_succ_le_succ hmn)⟩

/-- An instruction whose bytes stand in memory at `PC`, none of them at a port, is fetched, however many bytes the reader
knows of. -/
theorem fetch_of_decode_bytesAt {s : State} {i : Instr} {rest : List Byte} {n : Nat}
    (h : decode (bytesAt s s.pc n) = .ok (i, rest)) (hram : noPortIn s.pc (encode i).length = true) :
    fetch s = .fetched i (afterFetch s (s.pc + BitVec.ofNat 16 (encode i).length) s.input) := by
  cases n with
  | zero => cases h
  | succ n =>
    obtain ⟨sh, hop, hlen, rfl⟩ := shapeOf_of_decode h
    rw [bytesAt_length] at hlen
    rw [hlen, bytesAt_take] at hram ⊢
    obtain ⟨-, henc⟩ := encode_build (encodesAs_of_shapeOf hop) (bytesAt_length _ s (s.pc + 1#16))
    rw [henc, List.length_cons, bytesAt_length] at hram ⊢
    rw [fetch_of_memory hop hram, Nat.add_comm]
    rfl

/-- Log entry 6: the four bytes that `withFetchWord` places are away from the ports. -/
theorem noPortIn_placementBase (s : State) : noPortIn (placementBase s) 4 = true := by
  unfold placementBase
  split
  case isTrue h => exact h
  case isFalse => rfl

theorem placementBase_cases (s : State) : placementBase s = s.pc ∨ placementBase s = 0x0100#16 := by
  unfold placementBase
  split
  case isTrue => exact .inl rfl
  case isFalse => exact .inr rfl

theorem decode_of_decodeTableWord {nbits w : Nat} {i : Instr} (h : decodeTableWord nbits w = some i) :
    ∃ rest, decode (tableWordBytes nbits w) = .ok (i, rest) := by
  unfold decodeTableWord at h
  split at h
  case h_1 j rest hdec => cases h; exact ⟨rest, hdec⟩
  case h_2 => cases h

/-- The bytes of the word stand at `PC` after `withFetchWord`. -/
theorem bytesAt_withFetchWord (s : State) (nbits w : Nat) :
    bytesAt (s.withFetchWord nbits w) (s.withFetchWord nbits w).pc 4 = tableWordBytes nbits w :=
  bytesAt_of_copyIn (bytes := tableWordBytes nbits w) (m := s.mem) (show 4 ≤ 0x10000 by decide) rfl

/-- Settles O54: the word's bytes stand at `PC`, away from the ports, so the fetch finds them. -/
theorem placedWordRuns : Obligations.PlacedWordRuns := by
  unfold Obligations.PlacedWordRuns
  intro s nbits w i h s0
  obtain ⟨rest, hdec⟩ := decode_of_decodeTableWord h
  obtain ⟨-, hbytes⟩ := encodeOfDecode _ rest i hdec
  have hlen : (encode i).length ≤ 4 :=
    calc (encode i).length ≤ (encode i ++ rest).length := by simp
      _ = 4 := by rw [← hbytes]; rfl
  rw [← bytesAt_withFetchWord s] at hdec
  have hfetch := fetch_of_decode_bytesAt hdec (noPortIn_of_le (noPortIn_placementBase s) hlen)
  exact ⟨placementBase_cases s, rfl, step_of_fetched rfl hfetch⟩

/-! ### run -/

/-- R304: a run ends after its first step when that leaves the core halted. -/
theorem runLoop_of_halts {s t : State} (h : step s = .next t) (hl : t.lastStep ≠ .waiting) (ht : t.halted = true)
    (fuel : Nat) : runLoop (fuel + 1) s = .ended t := by
  simp only [runLoop, h, if_neg hl, if_pos ht]

/-- R304: a run from any core ends after its first step when the instruction in memory at `PC` halts. -/
theorem run_of_exec_halts {s t : State} {i : Instr} {rest : List Byte} {n : Nat}
    (h : decode (bytesAt s s.pc n) = .ok (i, rest)) (hram : noPortIn s.pc (encode i).length = true)
    (hexec : exec i (afterFetch (startRun s) (s.pc + BitVec.ofNat 16 (encode i).length) s.input) = .next t)
    (hl : t.lastStep ≠ .waiting) (ht : t.halted = true) (fuel : Nat) : run (fuel + 1) s = .ended t := by
  rw [bytesAt_of_mem n s (startRun s) s.pc rfl] at h
  have hstep := step_of_fetched rfl (fetch_of_decode_bytesAt (s := startRun s) h hram)
  obtain ⟨hgoes, -⟩ := step_of_exec hstep hexec
  exact runLoop_of_halts (hgoes hl) hl ht fuel

/-- Settles O59: the instruction at `PC` is fetched again, and HLT and DIV by zero leave `PC` and the count. -/
theorem runAgainStopsAgain : Obligations.RunAgainStopsAgain := by
  unfold Obligations.RunAgainStopsAgain
  refine fun s fuel _ => ⟨fun hop hport => ?hlt, fun rd rs rest hdec hram hz => ?div⟩
  case hlt =>
    have hdec : decode (bytesAt s s.pc 1) = .ok (.hlt, []) := by
      rw [bytesAt, hop]
      rfl
    have hram : noPortIn s.pc 1 = true := (noPortIn_succ _ _).2 ⟨hport, rfl⟩
    exact ⟨_, run_of_exec_halts hdec hram (exec_hlt _) (by simp) rfl fuel, rfl, rfl, rfl, rfl, rfl⟩
  case div =>
    have hexec := exec_div_zero (rd := rd) (rs := rs)
      (s := afterFetch (startRun s) (s.pc + BitVec.ofNat 16 (encode (.div rd rs)).length) s.input) (by simpa using hz)
    exact ⟨_, run_of_exec_halts hdec hram hexec (by simp) rfl fuel, rfl, rfl, rfl, rfl⟩

end Sys2Proof.Machine
